-- ==== Sys2Proof/Word.lean ====
section
/-! DEFINITION. The word types of the voice engine: 64-bit command words, 32-bit response words and counters,
binary32 values kept as their 32 bits, and bytes (spec/00_scope.md R11, R13; spec/20_memory.md R50, R52, R53). -/

namespace Sys2Proof

/-- A 32-bit word: a response word, a counter `N` or `N_REL`, the register `STATUS` (R21, R26, R29). -/
abbrev Word32 := BitVec 32

/-- An IEEE 754 binary32 value, held as its bit pattern: sign in bit 31, exponent in bits 30..23, fraction in
bits 22..0 (R13, R53). -/
abbrev F32 := BitVec 32

/-- One 64-bit command word (R70). -/
abbrev CmdWord := BitVec 64

/-- One byte of a serialised word (R52). -/
abbrev Byte := BitVec 8

end Sys2Proof
end

