-- ==== Sys2Proof/Syntax.lean ====
section
/-! DEFINITION. The command set AGV1: one constructor per row of spec/opcode_table.json (spec/30_encoding.md R74 to R76).

PLAY, STOP and the setters carry their operand as the 32 bits of a binary32 value; every pattern is an operand (R72).
READ_VOICE carries its voice index as a natural number, the integer of R15; `WellFormed` says that it fits the 32-bit
operand field.  A word that selects no command is no instruction: `decode` answers the reason (R73, R304). -/

namespace Sys2Proof

/-- The commands of the voice engine. -/
inductive Instr
  /-- PLAY `x`: note-on at frequency `x` (R201). -/
  | play (x : F32)
  /-- STOP `x`: note-off for every active voice whose target frequency is `x` (R202). -/
  | stop (x : F32)
  /-- SAMPLE: render and return one output frame (R203). -/
  | sample
  /-- SET_ATTACK `x`, seconds (R222). -/
  | setAttack (x : F32)
  /-- SET_DECAY `x`, seconds (R223). -/
  | setDecay (x : F32)
  /-- SET_SUSTAIN `x`, level (R224). -/
  | setSustain (x : F32)
  /-- SET_RELEASE `x`, seconds (R225). -/
  | setRelease (x : F32)
  /-- SET_GLIDE `x`, seconds (R226). -/
  | setGlide (x : F32)
  /-- READ_REG STATUS: SEL = 0 (R75, R227). -/
  | readRegStatus
  /-- READ_REG ATTACK: SEL = 1 (R75, R227). -/
  | readRegAttack
  /-- READ_REG DECAY: SEL = 2 (R75, R227). -/
  | readRegDecay
  /-- READ_REG SUSTAIN: SEL = 3 (R75, R227). -/
  | readRegSustain
  /-- READ_REG RELEASE: SEL = 4 (R75, R227). -/
  | readRegRelease
  /-- READ_REG GLIDE: SEL = 5 (R75, R227). -/
  | readRegGlide
  /-- READ_REG GAIN: SEL = 6 (R75, R227). -/
  | readRegGain
  /-- READ_REG NVOICES: SEL = 7 (R75, R227). -/
  | readRegNvoices
  /-- READ_REG SR: SEL = 8 (R75, R227). -/
  | readRegSr
  /-- READ_VOICE ACTIVE, `idx`: SEL = 0 (R76, R228). -/
  | readVoiceActive (idx : Nat)
  /-- READ_VOICE PHASE, `idx`: SEL = 1 (R76, R228). -/
  | readVoicePhase (idx : Nat)
  /-- READ_VOICE OSC_FREQ, `idx`: SEL = 2 (R76, R228). -/
  | readVoiceOscFreq (idx : Nat)
  /-- READ_VOICE START, `idx`: SEL = 3 (R76, R228). -/
  | readVoiceStart (idx : Nat)
  /-- READ_VOICE END, `idx`: SEL = 4 (R76, R228). -/
  | readVoiceEnd (idx : Nat)
  /-- READ_VOICE N, `idx`: SEL = 5 (R76, R228). -/
  | readVoiceN (idx : Nat)
  /-- READ_VOICE REL, `idx`: SEL = 6 (R76, R228). -/
  | readVoiceRel (idx : Nat)
  /-- READ_VOICE N_REL, `idx`: SEL = 7 (R76, R228). -/
  | readVoiceNRel (idx : Nat)
  /-- READ_VOICE REL_AMP, `idx`: SEL = 8 (R76, R228). -/
  | readVoiceRelAmp (idx : Nat)
  /-- READ_VOICE RTG_AMP, `idx`: SEL = 9 (R76, R228). -/
  | readVoiceRtgAmp (idx : Nat)
  /-- READ_VOICE WAVE, `idx`: SEL = 10 (R76, R228). -/
  | readVoiceWave (idx : Nat)
  /-- READ_VOICE STATE, `idx`: SEL = 11 (R76, R228). -/
  | readVoiceState (idx : Nat)
  /-- READ_VOICE AMP, `idx`: SEL = 12 (R76, R228). -/
  | readVoiceAmp (idx : Nat)
  deriving DecidableEq, Repr

end Sys2Proof
end

