-- ==== Sys2Proof/WellFormed.lean ====
section
/-! DEFINITION. Which instructions a command word can carry (spec/30_encoding.md R72, R80).

The only operand that is not 32 bits by its type is the voice index of READ_VOICE: it must be below `2^32`.  An index at or
beyond `NVOICES` is well formed; it raises CV when the command executes (R228). -/

namespace Sys2Proof

/-- The check of a READ_VOICE index: it fits the operand field `OPD` (R71, R80 "integer < 2^32"). -/
def Instr.indexFits (idx : Nat) : Bool :=
  decide (idx < 2 ^ 32)

/-- An instruction is well formed when a command word of R71 can carry it. -/
def Instr.wf : Instr → Bool
  | .play _ => true
  | .stop _ => true
  | .sample => true
  | .setAttack _ => true
  | .setDecay _ => true
  | .setSustain _ => true
  | .setRelease _ => true
  | .setGlide _ => true
  | .readRegStatus => true
  | .readRegAttack => true
  | .readRegDecay => true
  | .readRegSustain => true
  | .readRegRelease => true
  | .readRegGlide => true
  | .readRegGain => true
  | .readRegNvoices => true
  | .readRegSr => true
  | .readVoiceActive idx => indexFits idx
  | .readVoicePhase idx => indexFits idx
  | .readVoiceOscFreq idx => indexFits idx
  | .readVoiceStart idx => indexFits idx
  | .readVoiceEnd idx => indexFits idx
  | .readVoiceN idx => indexFits idx
  | .readVoiceRel idx => indexFits idx
  | .readVoiceNRel idx => indexFits idx
  | .readVoiceRelAmp idx => indexFits idx
  | .readVoiceRtgAmp idx => indexFits idx
  | .readVoiceWave idx => indexFits idx
  | .readVoiceState idx => indexFits idx
  | .readVoiceAmp idx => indexFits idx

/-- `Instr.wf` as a proposition. -/
abbrev WellFormed (i : Instr) : Prop :=
  i.wf = true

end Sys2Proof
end

