-- ==== Sys2Proof/Decode.lean ====
section
/-! DEFINITION. Decoding and encoding of command words (spec/30_encoding.md R70 to R77), total on all 64-bit words, and the
little-endian serialisation of a word on a byte transport (spec/20_memory.md R52). -/

namespace Sys2Proof

/-- `OPC = w[7:0]` (R71). -/
def opcOf (w : CmdWord) : BitVec 8 := w.extractLsb' 0 8

/-- `SEL = w[15:8]` (R71). -/
def selOf (w : CmdWord) : BitVec 8 := w.extractLsb' 8 8

/-- `RSV = w[31:16]` (R71). -/
def rsvOf (w : CmdWord) : BitVec 16 := w.extractLsb' 16 16

/-- `OPD = w[63:32]`: nothing in it is extended, shifted or scaled (R71, R72). -/
def opdOf (w : CmdWord) : BitVec 32 := w.extractLsb' 32 32

/-- Why a word is illegal: the five causes of R304. -/
inductive IllegalCause
  /-- cause 1: `RSV != 0` -/
  | rsvNonzero
  /-- cause 2: `OPC` is not assigned -/
  | opcUnassigned
  /-- cause 3: `SEL != 0` for `OPC` from `0x01` to `0x14` -/
  | selNonzero
  /-- cause 4: `OPD != 0` for SAMPLE or READ_REG -/
  | opdNonzero
  /-- cause 5: `SEL > 8` for READ_REG, or `SEL > 12` for READ_VOICE -/
  | selOutOfRange
  deriving DecidableEq, Repr

/-- A command with no selector: `SEL` must be 0 (R73). -/
def withoutSel (w : CmdWord) (i : Instr) : Except IllegalCause Instr :=
  if selOf w = 0 then .ok i else .error .selNonzero

/-- A command with no operand: `OPD` must be 0 (R73). -/
def withoutOpd (w : CmdWord) (r : Except IllegalCause Instr) : Except IllegalCause Instr :=
  if opdOf w = 0 then r else .error .opdNonzero

/-- The READ_REG command of a selector (R75). -/
def readRegOf (sel : Nat) : Except IllegalCause Instr :=
  match sel with
  | 0 => .ok .readRegStatus
  | 1 => .ok .readRegAttack
  | 2 => .ok .readRegDecay
  | 3 => .ok .readRegSustain
  | 4 => .ok .readRegRelease
  | 5 => .ok .readRegGlide
  | 6 => .ok .readRegGain
  | 7 => .ok .readRegNvoices
  | 8 => .ok .readRegSr
  | _ => .error .selOutOfRange

/-- The READ_VOICE command of a field selector and a voice index (R76). -/
def readVoiceOf (sel idx : Nat) : Except IllegalCause Instr :=
  match sel with
  | 0 => .ok (.readVoiceActive idx)
  | 1 => .ok (.readVoicePhase idx)
  | 2 => .ok (.readVoiceOscFreq idx)
  | 3 => .ok (.readVoiceStart idx)
  | 4 => .ok (.readVoiceEnd idx)
  | 5 => .ok (.readVoiceN idx)
  | 6 => .ok (.readVoiceRel idx)
  | 7 => .ok (.readVoiceNRel idx)
  | 8 => .ok (.readVoiceRelAmp idx)
  | 9 => .ok (.readVoiceRtgAmp idx)
  | 10 => .ok (.readVoiceWave idx)
  | 11 => .ok (.readVoiceState idx)
  | 12 => .ok (.readVoiceAmp idx)
  | _ => .error .selOutOfRange

/-- R73: the decoder, a total function of the word alone.  `.error` is the spec's ILLEGAL, with its cause. -/
def decode (w : CmdWord) : Except IllegalCause Instr :=
  if rsvOf w ≠ 0 then .error .rsvNonzero
  else
    match (opcOf w).toNat with
    | 0x01 => withoutSel w (.play (opdOf w))
    | 0x02 => withoutSel w (.stop (opdOf w))
    | 0x03 => if selOf w = 0 then withoutOpd w (.ok .sample) else .error .selNonzero
    | 0x10 => withoutSel w (.setAttack (opdOf w))
    | 0x11 => withoutSel w (.setDecay (opdOf w))
    | 0x12 => withoutSel w (.setSustain (opdOf w))
    | 0x13 => withoutSel w (.setRelease (opdOf w))
    | 0x14 => withoutSel w (.setGlide (opdOf w))
    | 0x20 => withoutOpd w (readRegOf (selOf w).toNat)
    | 0x21 => readVoiceOf (selOf w).toNat (opdOf w).toNat
    | _ => .error .opcUnassigned

/-- The command word `OPD : RSV : SEL : OPC` with `RSV = 0` (R71). -/
def cmdWord (opc sel : BitVec 8) (opd : BitVec 32) : CmdWord :=
  opd ++ (0#16) ++ sel ++ opc

/-- The command word of an instruction (R71, R74 to R76). -/
def encode : Instr → CmdWord
  | .play x => cmdWord 0x01#8 0#8 x
  | .stop x => cmdWord 0x02#8 0#8 x
  | .sample => cmdWord 0x03#8 0#8 0#32
  | .setAttack x => cmdWord 0x10#8 0#8 x
  | .setDecay x => cmdWord 0x11#8 0#8 x
  | .setSustain x => cmdWord 0x12#8 0#8 x
  | .setRelease x => cmdWord 0x13#8 0#8 x
  | .setGlide x => cmdWord 0x14#8 0#8 x
  | .readRegStatus => cmdWord 0x20#8 0#8 0#32
  | .readRegAttack => cmdWord 0x20#8 1#8 0#32
  | .readRegDecay => cmdWord 0x20#8 2#8 0#32
  | .readRegSustain => cmdWord 0x20#8 3#8 0#32
  | .readRegRelease => cmdWord 0x20#8 4#8 0#32
  | .readRegGlide => cmdWord 0x20#8 5#8 0#32
  | .readRegGain => cmdWord 0x20#8 6#8 0#32
  | .readRegNvoices => cmdWord 0x20#8 7#8 0#32
  | .readRegSr => cmdWord 0x20#8 8#8 0#32
  | .readVoiceActive idx => cmdWord 0x21#8 0#8 (BitVec.ofNat 32 idx)
  | .readVoicePhase idx => cmdWord 0x21#8 1#8 (BitVec.ofNat 32 idx)
  | .readVoiceOscFreq idx => cmdWord 0x21#8 2#8 (BitVec.ofNat 32 idx)
  | .readVoiceStart idx => cmdWord 0x21#8 3#8 (BitVec.ofNat 32 idx)
  | .readVoiceEnd idx => cmdWord 0x21#8 4#8 (BitVec.ofNat 32 idx)
  | .readVoiceN idx => cmdWord 0x21#8 5#8 (BitVec.ofNat 32 idx)
  | .readVoiceRel idx => cmdWord 0x21#8 6#8 (BitVec.ofNat 32 idx)
  | .readVoiceNRel idx => cmdWord 0x21#8 7#8 (BitVec.ofNat 32 idx)
  | .readVoiceRelAmp idx => cmdWord 0x21#8 8#8 (BitVec.ofNat 32 idx)
  | .readVoiceRtgAmp idx => cmdWord 0x21#8 9#8 (BitVec.ofNat 32 idx)
  | .readVoiceWave idx => cmdWord 0x21#8 10#8 (BitVec.ofNat 32 idx)
  | .readVoiceState idx => cmdWord 0x21#8 11#8 (BitVec.ofNat 32 idx)
  | .readVoiceAmp idx => cmdWord 0x21#8 12#8 (BitVec.ofNat 32 idx)

/-- R52: byte `j` of a serialised command word holds bits `[8j+7 : 8j]`, lowest byte first. -/
def cmdBytes (w : CmdWord) : List Byte :=
  (List.range 8).map fun j => w.extractLsb' (8 * j) 8

/-- R52: byte `j` of a serialised response word, lowest byte first. -/
def respBytes (w : Word32) : List Byte :=
  (List.range 4).map fun j => w.extractLsb' (8 * j) 8

/-- The number whose little-endian bytes are given (R52). -/
def leNat : List Byte → Nat
  | [] => 0
  | b :: bs => b.toNat + 256 * leNat bs

/-- R52, R54: the command word a bridge puts together from its eight bytes; no other number of bytes is a word. -/
def cmdOfBytes (bs : List Byte) : Option CmdWord :=
  if bs.length = 8 then some (BitVec.ofNat 64 (leNat bs)) else none

/-- The instruction the decoder reads from an opcode-table word: `w`'s low `nbits` bits, the rest 0.  The block sees whole
64-bit words (R52, R54), so the word is given to `decode` as it is. -/
def decodeTableWord (nbits w : Nat) : Option Instr :=
  match decode (BitVec.ofNat 64 (w % 2 ^ nbits)) with
  | .ok i => some i
  | .error _ => none

end Sys2Proof
end

