-- ==== Sys2Proof/Config.lean ====
section
/-! DEFINITION. What is fixed when a block is built (spec/00_scope.md R6 to R10) and the values the spec leaves free.

The parameters `NVOICES`, `SR`, `GAIN` and `WAVE` are OPEN in the spec ("A model takes each one as an argument").
They are the plain data of `Config`; a block's `Config` stands beside its state and no step changes it (assumption 1), so
a statement over all states is a statement over all parameter values.  `SIN32` and the payload of a NaN result are
functions, so they are constants without a body (assumptions 2 and 3). -/

namespace Sys2Proof

/-- The waveform of a voice, chosen when the block is built (R9). -/
inductive Waveform
  /-- code 0 -/
  | sine
  /-- code 1 -/
  | saw
  /-- code 2 -/
  | square
  deriving DecidableEq, Repr

/-- The construction parameters (R6 to R9).  The ranges the spec gives them are `Machine.ConfigWf`
(Sys2Proof/Machine/Ops.lean). -/
structure Config where
  /-- `NVOICES`, the number of voices in the pool (R6). -/
  nvoices : Nat
  /-- `SR`, the sample rate in Hz (R7). -/
  sr : Nat
  /-- `GAIN`, a finite binary32 value (R8). -/
  gain : F32
  /-- `WAVE[i]` for `0 <= i < NVOICES`, in voice order (R9). -/
  wave : List Waveform
  deriving DecidableEq, Repr

/-- DESIGN CHOICE (assumption 1): the parameters of the block that `State.reset` describes.  The spec leaves all four
OPEN; these are the ones spec/95_test_vectors.md section 2.8 uses (4 voices, 48 kHz, gain 0.25, every waveform present). -/
def Config.vectors28 : Config :=
  { nvoices := 4
    sr := 48000
    gain := 0x3E800000#32
    wave := [.sine, .saw, .square, .sine] }

/-- Free value (assumption 2): an arbitrary function from which `SIN32` is made (R10).  `Machine.sin32` cuts it to the
two properties the spec names, and to nothing else. -/
opaque Config.sin32Free : F32 → F32

/-- Free value (assumption 3): the sign and payload of a NaN that an arithmetic operator produces.  The first argument
numbers the operator, the others are its operands.  IEEE 754 does not fix these bits, and R312 says no NaN is reachable. -/
opaque Config.nanFree : Nat → F32 → F32 → F32

end Sys2Proof
end

