-- ==== Sys2Proof/Machine/State.lean ====
section
/-! DEFINITION. The state of the voice engine (spec/10_state.md R20 to R32) as plain data, and its reset value
(spec/70_reset_and_hazards.md R400). -/

namespace Sys2Proof.Machine

/-- One voice `V[i]` of the voice register file (R21). -/
structure Voice where
  /-- `ACTIVE`: the voice sounds and is stepped by SAMPLE. -/
  active : Bool
  /-- `PHASE`: oscillator phase. -/
  phase : F32
  /-- `OSC_FREQ`: the oscillator's current clamped frequency. -/
  oscFreq : F32
  /-- `START`: glide origin. -/
  start : F32
  /-- `END`: glide target, and the key for allocation and release. -/
  endFreq : F32
  /-- `N`: samples elapsed since the last trigger. -/
  n : Word32
  /-- `REL`: set after release. -/
  rel : Bool
  /-- `N_REL`: value of `N` at release. -/
  nRel : Word32
  /-- `REL_AMP`: amplitude captured at release. -/
  relAmp : F32
  /-- `RTG_AMP`: amplitude captured at trigger. -/
  rtgAmp : F32
  deriving DecidableEq, Repr

/-- The patch registers `P`, shared by all voices (R25, R32). -/
structure Patch where
  /-- `P.ATTACK`, seconds. -/
  attack : F32
  /-- `P.DECAY`, seconds. -/
  decay : F32
  /-- `P.SUSTAIN`, a level. -/
  sustain : F32
  /-- `P.RELEASE`, seconds. -/
  release : F32
  /-- `P.GLIDE`, seconds. -/
  glide : F32
  deriving DecidableEq, Repr

/-- The two error events (R301). -/
inductive ErrorEvent
  /-- `ILL`, illegal command: STATUS bit 0. -/
  | ill
  /-- `CV`, contract violation: STATUS bit 1. -/
  | cv
  deriving DecidableEq, Repr

/-- The name of an envelope's state (R130); derived from the voice's fields, never stored. -/
inductive EnvState
  /-- code 0 -/
  | retriggerFade
  /-- code 1 -/
  | attack
  /-- code 2 -/
  | decay
  /-- code 3 -/
  | sustain
  /-- code 4 -/
  | release
  /-- code 5 -/
  | done
  deriving DecidableEq, Repr

/-- What the host and the platform do to the block, one at a time and between commands (R2, R29, R400). -/
inductive HostInput
  /-- The host delivers one command word (R2, R54). -/
  | command (w : CmdWord)
  /-- The host takes the oldest word of the response stream (R29). -/
  | take
  /-- The platform asserts the reset input (R400). -/
  | reset
  deriving DecidableEq, Repr

/-- The block, with its parameters and the host's inputs still to come.  R20 gives it the voice file, the patch
registers, `STATUS` and the response stream; `cfg` are the parameters of R6 to R9 (assumption 1) and `input` is the
model's own field for the command stream of R2 and R50 (assumption 4). -/
structure State where
  /-- `NVOICES`, `SR`, `GAIN`, `WAVE`: configuration, changed by nothing (R27, R401). -/
  cfg : Config
  /-- `V[0..NVOICES-1]` in voice order (R21). -/
  voices : List Voice
  /-- `P` (R25). -/
  patch : Patch
  /-- `STATUS` (R26). -/
  status : Word32
  /-- The response stream, oldest word first (R29). -/
  resp : List Word32
  /-- What the host will do next, first input first. -/
  input : List HostInput
  deriving DecidableEq, Repr

/-- The reasons to stop with a fault.  There are none: no error stops the block (R300), no operation traps or blocks
(R2, R308, R311), and there is no memory that an access could miss (R50). -/
inductive Fault
  deriving DecidableEq, Repr

/-- The reasons to refuse. -/
inductive Refusal
  /-- Raised by `exec` alone, for an instruction whose meaning is not written yet.  Safe: the machine stops. -/
  | notModelled (mnemonic : String)
  deriving DecidableEq, Repr

/-- A voice after reset (R21, R400). -/
def Voice.reset : Voice :=
  { active := false
    phase := 0x00000000#32
    oscFreq := 0x00000000#32
    start := 0x00000000#32
    endFreq := 0x00000000#32
    n := 0#32
    rel := false
    nRel := 0#32
    relAmp := 0x00000000#32
    rtgAmp := 0x00000000#32 }

/-- The patch registers after reset (R25, R400): `SUSTAIN = 1.0`, the durations `+0.0`. -/
def Patch.reset : Patch :=
  { attack := 0x00000000#32
    decay := 0x00000000#32
    sustain := 0x3F800000#32
    release := 0x00000000#32
    glide := 0x00000000#32 }

/-- The block with parameters `c` right after reset (R400, R401), waiting for its first command (R403). -/
def State.resetOf (c : Config) : State :=
  { cfg := c
    voices := List.replicate c.nvoices Voice.reset
    patch := Patch.reset
    status := 0#32
    resp := []
    input := [] }

/-- The machine right after reset.  The spec leaves the parameters OPEN; this one has those of spec/95_test_vectors.md
section 2.8 (assumption 1). -/
def State.reset : State :=
  State.resetOf Config.vectors28

end Sys2Proof.Machine
end

