-- ==== Sys2Proof/Machine/Flags.lean ====
section
/-! DEFINITION. The flags of the block: the two bits of `STATUS` and how a boolean or a state name is read as a word
(spec/10_state.md R26, R30; spec/41_envelope.md R130; spec/45_parameter_commands.md R228).  There are no arithmetic flags
(R30). -/

namespace Sys2Proof.Machine

/-- The bit of `STATUS` an error event sets: `ILL` is bit 0, `CV` bit 1 (R26, R301). -/
def ErrorEvent.mask : ErrorEvent → Word32
  | .ill => 0x00000001#32
  | .cv => 0x00000002#32

/-- `STATUS.ILL` (R26). -/
def statusIll (st : Word32) : Bool := st.getLsbD 0

/-- `STATUS.CV` (R26). -/
def statusCv (st : Word32) : Bool := st.getLsbD 1

/-- `STATUS[31:2]`, reserved (R26). -/
def statusReserved (st : Word32) : BitVec 30 := st.extractLsb' 2 30

/-- A boolean is emitted as the u32 value 0 or 1 (R228). -/
def boolWord (b : Bool) : Word32 := if b then 1#32 else 0#32

/-- The code of an envelope state (R130). -/
def EnvState.code : EnvState → Word32
  | .retriggerFade => 0#32
  | .attack => 1#32
  | .decay => 2#32
  | .sustain => 3#32
  | .release => 4#32
  | .done => 5#32

/-- The code of a waveform (R9). -/
def waveCode : Waveform → Word32
  | .sine => 0#32
  | .saw => 1#32
  | .square => 2#32

end Sys2Proof.Machine
end

