-- ==== Sys2Proof/Machine/Float.lean ====
section
/-! DEFINITION. IEEE 754 binary32 arithmetic, round to nearest, ties to even, subnormals kept (spec/00_scope.md R11 to R14),
exact on bit patterns.

A finite value is an integer number of UNITS of `2^-149`, the smallest subnormal.  Each operator computes its result
exactly, as a fraction of such units, and rounds it once with `roundMag`.  What IEEE 754 fixes and the spec does not write
out (signs of zero results, overflow to infinity, which operations give a NaN) is assumption 11. -/

namespace Sys2Proof.Machine

/-- `+0.0` -/
def posZero : F32 := 0x00000000#32
/-- `-0.0` -/
def negZero : F32 := 0x80000000#32
/-- `ONE`, 1.0 (R16) -/
def one : F32 := 0x3F800000#32
/-- `-1.0` -/
def negOne : F32 := 0xBF800000#32
/-- `HALF`, 0.5 (R16) -/
def half : F32 := 0x3F000000#32
/-- 2.0 -/
def two : F32 := 0x40000000#32
/-- `RT`, the retrigger window in seconds: binary32 nearest 0.01 (R16) -/
def rt : F32 := 0x3C23D70A#32
/-- `TWO_PI`, binary32 nearest 2π (R16) -/
def twoPi : F32 := 0x40C90FDB#32

/-- The magnitude bits of infinity: exponent all ones, fraction zero (R13). -/
def infMag : Nat := 0x7F800000

/-- The sign bit, bit 31 (R13). -/
def signOf (a : F32) : Bool := a.msb

/-- The magnitude bits 30..0: exponent and fraction (R13). -/
def magOf (a : F32) : Nat := a.toNat % 2 ^ 31

/-- The binary32 pattern with a sign and magnitude bits. -/
def pack (s : Bool) (m : Nat) : F32 :=
  BitVec.ofNat 32 (if s then 2 ^ 31 + m else m)

/-- R13: `isNaN`. -/
def isNaN (a : F32) : Bool := decide (infMag < magOf a)

/-- An infinity of either sign. -/
def isInf (a : F32) : Bool := decide (magOf a = infMag)

/-- R13: `isFinite`. -/
def isFinite (a : F32) : Bool := decide (magOf a < infMag)

/-- A zero of either sign. -/
def isZero (a : F32) : Bool := decide (magOf a = 0)

/-- R12: `abs` clears the sign bit. -/
def fabs (a : F32) : F32 := pack false (magOf a)

/-- The value with its sign bit inverted. -/
def fneg (a : F32) : F32 := pack (!signOf a) (magOf a)

/-- The value of finite magnitude bits, in units of `2^-149`: a subnormal is its own fraction; a normal number has the
hidden bit and is shifted by its exponent. -/
def unitsOfMag (m : Nat) : Nat :=
  if m < 2 ^ 23 then m else (2 ^ 23 + m % 2 ^ 23) * 2 ^ (m / 2 ^ 23 - 1)

/-- The signed value of a finite binary32, in units of `2^-149`. -/
def unitsOf (a : F32) : Int :=
  if signOf a then -(unitsOfMag (magOf a) : Int) else (unitsOfMag (magOf a) : Int)

/-- `n / d` rounded to the nearest integer, a tie to the even one. -/
def roundNearest (n d : Nat) : Nat :=
  if 2 * (n % d) < d then n / d
  else if d < 2 * (n % d) then n / d + 1
  else n / d + n / d % 2

/-- How many low bits of the integer `q` lie below its 24 leading ones: the exponent of the last place kept. -/
def dropOf (q : Nat) : Nat := Nat.log2 q - 23

/-- R11: the magnitude bits of the binary32 nearest `n / d` units, ties to even; too large a value is infinity.  With
`e` places dropped the kept integer has 24 bits, and `e * 2^23` added to it is the pattern, a carry out of the fraction
included. -/
def roundMag (n d : Nat) : Nat :=
  min (dropOf (n / d) * 2 ^ 23 + roundNearest n (d * 2 ^ dropOf (n / d))) infMag

/-- The NaN an operator gives (assumption 3): exponent all ones and the quiet bit set, the other bits free. -/
def nanOf (op : Nat) (a b : F32) : F32 :=
  Config.nanFree op a b ||| 0x7FC00000#32

/-- R12: `a +f b`. -/
def fadd (a b : F32) : F32 :=
  if isNaN a || isNaN b then nanOf 0 a b
  else if isInf a then (if isInf b && signOf a != signOf b then nanOf 0 a b else a)
  else if isInf b then b
  else if unitsOf a + unitsOf b = 0 then (if signOf a && signOf b then negZero else posZero)
  else pack (decide (unitsOf a + unitsOf b < 0)) (roundMag (unitsOf a + unitsOf b).natAbs 1)

/-- R12: `a -f b`, the sum with `b`'s sign inverted. -/
def fsub (a b : F32) : F32 := fadd a (fneg b)

/-- R12: `a *f b`. -/
def fmul (a b : F32) : F32 :=
  if isNaN a || isNaN b then nanOf 1 a b
  else if isInf a || isInf b then
    (if isZero a || isZero b then nanOf 1 a b else pack (signOf a != signOf b) infMag)
  else
    pack (signOf a != signOf b) (roundMag (unitsOfMag (magOf a) * unitsOfMag (magOf b)) (2 ^ 149))

/-- R12: `a /f b`. -/
def fdiv (a b : F32) : F32 :=
  if isNaN a || isNaN b then nanOf 2 a b
  else if isInf a then (if isInf b then nanOf 2 a b else pack (signOf a != signOf b) infMag)
  else if isInf b then pack (signOf a != signOf b) 0
  else if isZero b then (if isZero a then nanOf 2 a b else pack (signOf a != signOf b) infMag)
  else
    pack (signOf a != signOf b) (roundMag (unitsOfMag (magOf a) * 2 ^ 149) (unitsOfMag (magOf b)))

/-- R12: `toF32(n)`, the nearest binary32 of an unsigned integer. -/
def toF32 (n : Nat) : F32 := pack false (roundMag (n * 2 ^ 149) 1)

/-- The place of a value that is not NaN in the order of R13: patterns of one sign are ordered as their magnitude bits,
and both zeros have the place 0. -/
def rankOf (a : F32) : Int :=
  if signOf a then -(magOf a : Int) else (magOf a : Int)

/-- R13: `a < b`, false with a NaN operand. -/
def flt (a b : F32) : Bool := !isNaN a && !isNaN b && decide (rankOf a < rankOf b)

/-- R13: `a <= b`, false with a NaN operand. -/
def fle (a b : F32) : Bool := !isNaN a && !isNaN b && decide (rankOf a ≤ rankOf b)

/-- R13: `a == b`, false with a NaN operand; `+0.0 == -0.0`. -/
def feq (a b : F32) : Bool := !isNaN a && !isNaN b && decide (rankOf a = rankOf b)

/-- R13: `beq`, equality of bit patterns. -/
def beqBits (a b : F32) : Bool := decide (a = b)

/-- R14: `clampF`; a NaN `x` is returned unchanged. -/
def clampF (x lo hi : F32) : F32 :=
  if flt x lo then lo else if flt hi x then hi else x

/-- R14: `clamp01`. -/
def clamp01 (x : F32) : F32 := clampF x posZero one

/-- R10: `SIN32`.  A free function cut to exactly the two properties the spec names: (SIN-ZERO), and (SIN-RANGE) with no
NaN.  Every function that has both properties is reached by some `Config.sin32Free` (assumption 2). -/
def sin32 (x : F32) : F32 :=
  if x = posZero then posZero
  else if fle negOne (Config.sin32Free x) && fle (Config.sin32Free x) one then Config.sin32Free x
  else posZero

end Sys2Proof.Machine
end

