-- ==== Sys2Proof/Machine/Operands.lean ====
section
/-! DEFINITION. What the commands make of their operands: PLAY's check (spec/44_engine_commands.md R201), the sanitation of
the setters (spec/45_parameter_commands.md R220, R221) and the integer increment of R15. -/

namespace Sys2Proof.Machine

/-- PLAY accepts finite positive operands only (R201). -/
def playable (x : F32) : Bool := isFinite x && flt posZero x

/-- R220: `sanitize_duration`.  The value to store, `none` for DISCARD, and whether CV is raised. -/
def sanitizeDuration (x : F32) : Option F32 × Bool :=
  if isNaN x then (none, true)
  else if flt x posZero then (some posZero, true)
  else if feq x posZero then (some posZero, false)
  else (some x, false)

/-- R221: `sanitize_level`. -/
def sanitizeLevel (x : F32) : Option F32 × Bool :=
  if isNaN x then (none, true)
  else if flt x posZero then (some posZero, true)
  else if flt one x then (some one, true)
  else if feq x posZero then (some posZero, false)
  else (some x, false)

/-- R15: `sat_inc`, which stays at `2^32 - 1`. -/
def satInc (n : Word32) : Word32 := if n.toNat < 2 ^ 32 - 1 then n + 1#32 else n

end Sys2Proof.Machine
end

