-- ==== Sys2Proof/Machine/Ops.lean ====
section
/-! DEFINITION. The named operations over the block's state that the meanings share: the parameters and the constants
derived from them, the voice file, the patch registers, the response stream, the error events and reset. -/

namespace Sys2Proof.Machine

/-- The ranges of the parameters (R6 to R9).  `WAVE` has one entry per voice. -/
abbrev ConfigWf (c : Config) : Prop :=
  (1 ≤ c.nvoices ∧ c.nvoices ≤ 2 ^ 32 - 1) ∧ (1 ≤ c.sr ∧ c.sr ≤ 2 ^ 24) ∧
    isFinite c.gain = true ∧ c.wave.length = c.nvoices

/-- `SRf = toF32(SR)` (R16). -/
def srf (c : Config) : F32 := toF32 c.sr

/-- `NYQ = SRf /f 2.0` (R16). -/
def nyq (c : Config) : F32 := fdiv (srf c) two

/-- `WAVE[i]` (R9); beyond the pool, which no command reaches, SINE (assumption 8). -/
def waveOf (c : Config) (i : Nat) : Waveform := c.wave.getD i .sine

/-- `V[i]`; beyond the pool, which no command reaches, a voice at reset (assumption 8). -/
def voiceAt (s : State) (i : Nat) : Voice := s.voices.getD i Voice.reset

/-- `V[i]` replaced by `f V[i]`, every other voice kept. -/
def updateVoice (i : Nat) (f : Voice → Voice) (s : State) : State :=
  { s with voices := s.voices.modify i f }

/-- R17: `emit(w)` appends one word to the response stream. -/
def emit (w : Word32) (s : State) : State :=
  { s with resp := s.resp ++ [w] }

/-- R301 to R303, R308: an error event.  It sets its sticky bit of `STATUS` and does nothing else: the block has no trap
entry, no saved state and no return (R300, R308). -/
def raiseEvent (e : ErrorEvent) (s : State) : State :=
  { s with status := s.status ||| e.mask }

/-- A setter, given what sanitation made of its operand: CV where it is raised, and the register written unless the
operand is discarded (R220 to R226). -/
def setPatch (write : F32 → Patch → Patch) (r : Option F32 × Bool) (s : State) : State :=
  let s1 := if r.2 then raiseEvent .cv s else s
  match r.1 with
  | some y => { s1 with patch := write y s1.patch }
  | none => s1

/-- READ_VOICE: an index outside the pool raises CV and appends nothing (R228); otherwise one word is appended. -/
def readVoice (idx : Nat) (word : State → Word32) (s : State) : State :=
  if idx ≥ s.cfg.nvoices then raiseEvent .cv s else emit (word s) s

/-- R400, R401: the reset input.  Every field of R20 takes its reset value; the parameters stay, and so do the inputs the
host has still to give. -/
def assertReset (s : State) : State :=
  { State.resetOf s.cfg with input := s.input }

/-- R29: the host takes the oldest word of the response stream; with nothing there, nothing happens (assumption 5). -/
def takeResponse (s : State) : State :=
  { s with resp := s.resp.tail }

end Sys2Proof.Machine
end

