-- ==== Sys2Proof/Machine/Oscillator.lean ====
section
/-! DEFINITION. The phase-accumulation oscillator (spec/40_oscillator.md R100 to R105). -/

namespace Sys2Proof.Machine

/-- R100: `osc_set_freq`, the Nyquist clamp. -/
def oscSetFreq (c : Config) (f : F32) (v : Voice) : Voice :=
  { v with oscFreq := clampF f posZero (nyq c) }

/-- R101: `wave(w, p)`. -/
def waveValue (w : Waveform) (p : F32) : F32 :=
  match w with
  | .sine => sin32 (fmul twoPi p)
  | .saw => fsub (fmul two p) one
  | .square => if flt p half then one else negOne

/-- R102: the phase after one sample: `PHASE +f (OSC_FREQ /f SRf)`, wrapped by one subtraction. -/
def nextPhase (c : Config) (v : Voice) : F32 :=
  let ph := fadd v.phase (fdiv v.oscFreq (srf c))
  if fle one ph then fsub ph one else ph

/-- R102: `osc_step`: the value at the old phase, and the voice with its phase advanced. -/
def oscStep (c : Config) (w : Waveform) (v : Voice) : F32 × Voice :=
  (waveValue w v.phase, { v with phase := nextPhase c v })

end Sys2Proof.Machine
end

