-- ==== Sys2Proof/Machine/Envelope.lean ====
section
/-! DEFINITION. The amplitude envelope with its anti-pop retrigger (spec/41_envelope.md R120 to R137). -/

namespace Sys2Proof.Machine

/-- R120: `t_of(n)`, seconds elapsed for a sample count. -/
def tOf (c : Config) (n : Word32) : F32 := fdiv (toF32 n.toNat) (srf c)

/-- R121: `ratio(x, d)`, guarded against a zero duration. -/
def ratio (x d : F32) : F32 := if fle d posZero then one else clamp01 (fdiv x d)

/-- R123, R129: the time since release, from the integer difference of the counters. -/
def tRel (c : Config) (v : Voice) : F32 := tOf c (v.n - v.nRel)

/-- R123: the release branch. -/
def ampRelease (c : Config) (p : Patch) (v : Voice) : F32 :=
  fmul v.relAmp (fsub one (ratio (tRel c v) p.release))

/-- R124: the retrigger-fade branch. -/
def ampFade (v : Voice) (t : F32) : F32 :=
  fmul v.rtgAmp (fsub one (clamp01 (fdiv t rt)))

/-- R122: `eA = RT +f P.ATTACK`, where the attack ends. -/
def attackEnd (p : Patch) : F32 := fadd rt p.attack

/-- R122: `eD = eA +f P.DECAY`, where the decay ends. -/
def decayEnd (p : Patch) : F32 := fadd (attackEnd p) p.decay

/-- R125: the attack branch. -/
def ampAttack (p : Patch) (t : F32) : F32 := ratio (fsub t rt) p.attack

/-- R126: the decay branch. -/
def ampDecay (p : Patch) (t : F32) : F32 :=
  fsub one (fmul (fsub one p.sustain) (ratio (fsub (fsub t rt) p.attack) p.decay))

/-- R122: `amp_at`, the current amplitude.  It reads the voice and the patch and writes nothing; the branches are tried in
the order of the rule (R127 is the last). -/
def ampAt (c : Config) (p : Patch) (v : Voice) : F32 :=
  if v.rel then ampRelease c p v
  else
    let t := tOf c v.n
    if fle t rt then ampFade v t
    else if fle t (attackEnd p) then ampAttack p t
    else if fle t (decayEnd p) then ampDecay p t
    else p.sustain

/-- R129: `is_done`, has the release finished? -/
def isDone (c : Config) (p : Patch) (v : Voice) : Bool :=
  v.rel && fle p.release (tRel c v)

/-- R130: `env_state`, the name of the envelope's state. -/
def envState (c : Config) (p : Patch) (v : Voice) : EnvState :=
  if v.rel then (if isDone c p v then .done else .release)
  else
    let t := tOf c v.n
    if fle t rt then .retriggerFade
    else if fle t (fadd rt p.attack) then .attack
    else if fle t (fadd (fadd rt p.attack) p.decay) then .decay
    else .sustain

/-- R132: `env_trigger`: the amplitude is captured before any field changes. -/
def envTrigger (c : Config) (p : Patch) (v : Voice) : Voice :=
  { v with
    rtgAmp := ampAt c p v
    n := 0#32
    rel := false
    nRel := 0#32
    relAmp := posZero }

/-- R133: `env_release`: nothing if already released, else the amplitude and the counter are captured. -/
def envRelease (c : Config) (p : Patch) (v : Voice) : Voice :=
  if v.rel then v
  else
    { v with
      relAmp := ampAt c p v
      nRel := v.n
      rel := true }

/-- R134: `env_advance`. -/
def envAdvance (v : Voice) : Voice := { v with n := satInc v.n }

end Sys2Proof.Machine
end

