-- ==== Sys2Proof/Machine/Ramp.lean ====
section
/-! DEFINITION. The frequency ramp (spec/42_ramp.md R150 to R155).  Its elapsed time is the voice's counter `N` (R153). -/

namespace Sys2Proof.Machine

/-- R150: `ramp_ratio`. -/
def rampRatio (c : Config) (p : Patch) (v : Voice) : F32 := ratio (tOf c v.n) p.glide

/-- R151: `ramp_process`. -/
def rampProcess (c : Config) (p : Patch) (v : Voice) (delta : F32) : F32 :=
  fmul delta (rampRatio c p v)

/-- R152: `inst_freq`, the instantaneous frequency. -/
def instFreq (c : Config) (p : Patch) (v : Voice) : F32 :=
  fadd v.start (rampProcess c p v (fsub v.endFreq v.start))

end Sys2Proof.Machine
end

