-- ==== Sys2Proof/Machine/Voice.lean ====
section
/-! DEFINITION. The voice: play, stop and the sample step (spec/43_voice.md R170 to R177). -/

namespace Sys2Proof.Machine

/-- R170: `voice_play`.  `PHASE` is not changed (R104). -/
def voicePlay (c : Config) (p : Patch) (f : F32) (v : Voice) : Voice :=
  let v1 := { v with start := v.oscFreq, endFreq := f }
  let v2 := envTrigger c p v1
  { v2 with active := true }

/-- R171: `voice_stop`.  `ACTIVE` is not changed. -/
def voiceStop (c : Config) (p : Patch) (v : Voice) : Voice := envRelease c p v

/-- R175: a voice whose envelope is done becomes idle. -/
def deactivateIfDone (c : Config) (p : Patch) (v : Voice) : Voice :=
  if isDone c p v then { v with active := false } else v

/-- R172 to R175, R177: `voice_step`, with the voice's waveform `w`: the sample and the voice after it.  The order is
frequency, generate, envelope, advance, gain, done check. -/
def voiceStep (c : Config) (p : Patch) (w : Waveform) (v : Voice) : F32 × Voice :=
  if v.active then
    let v1 := oscSetFreq c (instFreq c p v) v
    let r := oscStep c w v1
    let amp := ampAt c p r.2
    let v3 := envAdvance r.2
    let out := fmul (fmul r.1 amp) c.gain
    (out, deactivateIfDone c p v3)
  else (posZero, v)

end Sys2Proof.Machine
end

