-- ==== Sys2Proof/Machine/EngineCommands.lean ====
section
/-! DEFINITION. PLAY, STOP and SAMPLE: the allocator and the mixer (spec/44_engine_commands.md R200 to R205). -/

namespace Sys2Proof.Machine

/-- R200, the stealing loop over the voices from index `i` on: `best` is the voice chosen so far and `bd` its distance.
The comparison is strict, so the first minimum wins a tie. -/
def stealFrom (x : F32) : Nat → Nat → F32 → List Voice → Nat
  | _, best, _, [] => best
  | i, best, bd, v :: vs =>
    let d := fabs (fsub v.endFreq x)
    if flt d bd then stealFrom x (i + 1) i d vs else stealFrom x (i + 1) best bd vs

/-- R200: `select_voice`: the first idle voice, else the active voice whose `END` is nearest. -/
def selectVoice (x : F32) (vs : List Voice) : Nat :=
  match vs.findIdx? (fun v => !v.active) with
  | some i => i
  | none =>
    match vs with
    | [] => 0
    | v :: rest => stealFrom x 1 0 (fabs (fsub v.endFreq x)) rest

/-- R202: the voices a STOP of `x` releases: active, and `END` equal to `x` bit for bit. -/
def stopMatches (x : F32) (v : Voice) : Bool := v.active && beqBits v.endFreq x

/-- R203: the sample loop over the voices from index `i` on, in index order: the mix and the voices after it. -/
def sampleFrom (c : Config) (p : Patch) : Nat → F32 → List Voice → F32 × List Voice
  | _, acc, [] => (acc, [])
  | i, acc, v :: vs =>
    let r := voiceStep c p (waveOf c i) v
    let rest := sampleFrom c p (i + 1) (fadd acc r.1) vs
    (rest.1, r.2 :: rest.2)

/-- R201: PLAY. -/
def execPlay (x : F32) (s : State) : Host.Outcome State Fault Refusal :=
  if playable x then .next (updateVoice (selectVoice x s.voices) (voicePlay s.cfg s.patch x) s)
  else .next (raiseEvent .cv s)

/-- R202: STOP. -/
def execStop (x : F32) (s : State) : Host.Outcome State Fault Refusal :=
  .next { s with
    voices := s.voices.map fun v => if stopMatches x v then voiceStop s.cfg s.patch v else v }

/-- R203, R204: SAMPLE. -/
def execSample (s : State) : Host.Outcome State Fault Refusal :=
  let r := sampleFrom s.cfg s.patch 0 posZero s.voices
  .next (emit r.1 { s with voices := r.2 })

end Sys2Proof.Machine
end

