-- ==== Sys2Proof/Machine/ParameterCommands.lean ====
section
/-! DEFINITION. The five setters (spec/45_parameter_commands.md R220 to R226, R229). -/

namespace Sys2Proof.Machine

/-- R222: SET_ATTACK. -/
def execSetAttack (x : F32) (s : State) : Host.Outcome State Fault Refusal :=
  .next (setPatch (fun y p => { p with attack := y }) (sanitizeDuration x) s)

/-- R223: SET_DECAY. -/
def execSetDecay (x : F32) (s : State) : Host.Outcome State Fault Refusal :=
  .next (setPatch (fun y p => { p with decay := y }) (sanitizeDuration x) s)

/-- R224: SET_SUSTAIN. -/
def execSetSustain (x : F32) (s : State) : Host.Outcome State Fault Refusal :=
  .next (setPatch (fun y p => { p with sustain := y }) (sanitizeLevel x) s)

/-- R225: SET_RELEASE. -/
def execSetRelease (x : F32) (s : State) : Host.Outcome State Fault Refusal :=
  .next (setPatch (fun y p => { p with release := y }) (sanitizeDuration x) s)

/-- R226: SET_GLIDE. -/
def execSetGlide (x : F32) (s : State) : Host.Outcome State Fault Refusal :=
  .next (setPatch (fun y p => { p with glide := y }) (sanitizeDuration x) s)

end Sys2Proof.Machine
end

