-- ==== Sys2Proof/Machine/ReadCommands.lean ====
section
/-! DEFINITION. READ_REG and READ_VOICE, the observation port (spec/45_parameter_commands.md R227, R228; selectors
spec/30_encoding.md R75, R76).  Neither has a side effect beyond its response word (spec/20_memory.md R56). -/

namespace Sys2Proof.Machine

/-- R227: READ_REG STATUS. -/
def execReadRegStatus (s : State) : Host.Outcome State Fault Refusal :=
  .next (emit s.status s)

/-- R227: READ_REG ATTACK. -/
def execReadRegAttack (s : State) : Host.Outcome State Fault Refusal :=
  .next (emit s.patch.attack s)

/-- R227: READ_REG DECAY. -/
def execReadRegDecay (s : State) : Host.Outcome State Fault Refusal :=
  .next (emit s.patch.decay s)

/-- R227: READ_REG SUSTAIN. -/
def execReadRegSustain (s : State) : Host.Outcome State Fault Refusal :=
  .next (emit s.patch.sustain s)

/-- R227: READ_REG RELEASE. -/
def execReadRegRelease (s : State) : Host.Outcome State Fault Refusal :=
  .next (emit s.patch.release s)

/-- R227: READ_REG GLIDE. -/
def execReadRegGlide (s : State) : Host.Outcome State Fault Refusal :=
  .next (emit s.patch.glide s)

/-- R227: READ_REG GAIN. -/
def execReadRegGain (s : State) : Host.Outcome State Fault Refusal :=
  .next (emit s.cfg.gain s)

/-- R227: READ_REG NVOICES. -/
def execReadRegNvoices (s : State) : Host.Outcome State Fault Refusal :=
  .next (emit (BitVec.ofNat 32 s.cfg.nvoices) s)

/-- R227: READ_REG SR. -/
def execReadRegSr (s : State) : Host.Outcome State Fault Refusal :=
  .next (emit (BitVec.ofNat 32 s.cfg.sr) s)

/-- R228: READ_VOICE ACTIVE. -/
def execReadVoiceActive (idx : Nat) (s : State) : Host.Outcome State Fault Refusal :=
  .next (readVoice idx (fun t => boolWord (voiceAt t idx).active) s)

/-- R228: READ_VOICE PHASE. -/
def execReadVoicePhase (idx : Nat) (s : State) : Host.Outcome State Fault Refusal :=
  .next (readVoice idx (fun t => (voiceAt t idx).phase) s)

/-- R228: READ_VOICE OSC_FREQ. -/
def execReadVoiceOscFreq (idx : Nat) (s : State) : Host.Outcome State Fault Refusal :=
  .next (readVoice idx (fun t => (voiceAt t idx).oscFreq) s)

/-- R228: READ_VOICE START. -/
def execReadVoiceStart (idx : Nat) (s : State) : Host.Outcome State Fault Refusal :=
  .next (readVoice idx (fun t => (voiceAt t idx).start) s)

/-- R228: READ_VOICE END. -/
def execReadVoiceEnd (idx : Nat) (s : State) : Host.Outcome State Fault Refusal :=
  .next (readVoice idx (fun t => (voiceAt t idx).endFreq) s)

/-- R228: READ_VOICE N. -/
def execReadVoiceN (idx : Nat) (s : State) : Host.Outcome State Fault Refusal :=
  .next (readVoice idx (fun t => (voiceAt t idx).n) s)

/-- R228: READ_VOICE REL. -/
def execReadVoiceRel (idx : Nat) (s : State) : Host.Outcome State Fault Refusal :=
  .next (readVoice idx (fun t => boolWord (voiceAt t idx).rel) s)

/-- R228: READ_VOICE N_REL. -/
def execReadVoiceNRel (idx : Nat) (s : State) : Host.Outcome State Fault Refusal :=
  .next (readVoice idx (fun t => (voiceAt t idx).nRel) s)

/-- R228: READ_VOICE REL_AMP. -/
def execReadVoiceRelAmp (idx : Nat) (s : State) : Host.Outcome State Fault Refusal :=
  .next (readVoice idx (fun t => (voiceAt t idx).relAmp) s)

/-- R228: READ_VOICE RTG_AMP. -/
def execReadVoiceRtgAmp (idx : Nat) (s : State) : Host.Outcome State Fault Refusal :=
  .next (readVoice idx (fun t => (voiceAt t idx).rtgAmp) s)

/-- R228: READ_VOICE WAVE. -/
def execReadVoiceWave (idx : Nat) (s : State) : Host.Outcome State Fault Refusal :=
  .next (readVoice idx (fun t => waveCode (waveOf t.cfg idx)) s)

/-- R228: READ_VOICE STATE. -/
def execReadVoiceState (idx : Nat) (s : State) : Host.Outcome State Fault Refusal :=
  .next (readVoice idx (fun t => (envState t.cfg t.patch (voiceAt t idx)).code) s)

/-- R228: READ_VOICE AMP. -/
def execReadVoiceAmp (idx : Nat) (s : State) : Host.Outcome State Fault Refusal :=
  .next (readVoice idx (fun t => ampAt t.cfg t.patch (voiceAt t idx)) s)

end Sys2Proof.Machine
end

