-- ==== Sys2Proof/Machine/Dispatch.lean ====
section
/-! DEFINITION. One arm per command of spec/opcode_table.json, each a call of that command's own meaning. -/

namespace Sys2Proof.Machine

def exec (i : Instr) (s : State) : Host.Outcome State Fault Refusal :=
  match i with
  | .play x => Sys2Proof.Machine.execPlay x s
  | .stop x => Sys2Proof.Machine.execStop x s
  | .sample => Sys2Proof.Machine.execSample s
  | .setAttack x => Sys2Proof.Machine.execSetAttack x s
  | .setDecay x => Sys2Proof.Machine.execSetDecay x s
  | .setSustain x => Sys2Proof.Machine.execSetSustain x s
  | .setRelease x => Sys2Proof.Machine.execSetRelease x s
  | .setGlide x => Sys2Proof.Machine.execSetGlide x s
  | .readRegStatus => Sys2Proof.Machine.execReadRegStatus s
  | .readRegAttack => Sys2Proof.Machine.execReadRegAttack s
  | .readRegDecay => Sys2Proof.Machine.execReadRegDecay s
  | .readRegSustain => Sys2Proof.Machine.execReadRegSustain s
  | .readRegRelease => Sys2Proof.Machine.execReadRegRelease s
  | .readRegGlide => Sys2Proof.Machine.execReadRegGlide s
  | .readRegGain => Sys2Proof.Machine.execReadRegGain s
  | .readRegNvoices => Sys2Proof.Machine.execReadRegNvoices s
  | .readRegSr => Sys2Proof.Machine.execReadRegSr s
  | .readVoiceActive idx => Sys2Proof.Machine.execReadVoiceActive idx s
  | .readVoicePhase idx => Sys2Proof.Machine.execReadVoicePhase idx s
  | .readVoiceOscFreq idx => Sys2Proof.Machine.execReadVoiceOscFreq idx s
  | .readVoiceStart idx => Sys2Proof.Machine.execReadVoiceStart idx s
  | .readVoiceEnd idx => Sys2Proof.Machine.execReadVoiceEnd idx s
  | .readVoiceN idx => Sys2Proof.Machine.execReadVoiceN idx s
  | .readVoiceRel idx => Sys2Proof.Machine.execReadVoiceRel idx s
  | .readVoiceNRel idx => Sys2Proof.Machine.execReadVoiceNRel idx s
  | .readVoiceRelAmp idx => Sys2Proof.Machine.execReadVoiceRelAmp idx s
  | .readVoiceRtgAmp idx => Sys2Proof.Machine.execReadVoiceRtgAmp idx s
  | .readVoiceWave idx => Sys2Proof.Machine.execReadVoiceWave idx s
  | .readVoiceState idx => Sys2Proof.Machine.execReadVoiceState idx s
  | .readVoiceAmp idx => Sys2Proof.Machine.execReadVoiceAmp idx s

end Sys2Proof.Machine
end

