-- ==== Sys2Proof/Machine/Step.lean ====
section
/-! DEFINITION. One step of the block: it takes the host's next input (spec/00_scope.md R2; spec/10_state.md R28, R29;
spec/60_exceptions.md R300, R317; spec/70_reset_and_hazards.md R400, R403). -/

namespace Sys2Proof.Machine

/-- One command word: the decoded command executes; an ILLEGAL word raises ILL and has no other effect (R73, R302). -/
def runWord (w : CmdWord) (s : State) : Host.Outcome State Fault Refusal :=
  match decode w with
  | .ok i => exec i s
  | .error _ => .next (raiseEvent .ill s)

/-- One step: the next input is taken and acted on completely before the one after it.  With no input the block waits
and holds all its state (R317, R403). -/
def step (s : State) : Host.Outcome State Fault Refusal :=
  match s.input with
  | [] => .next s
  | .command w :: rest => runWord w { s with input := rest }
  | .take :: rest => .next (takeResponse { s with input := rest })
  | .reset :: rest => .next (assertReset { s with input := rest })

/-- The state in which the host's next input is the command word `w`, given as the opcode table numbers its bits; the
inputs already there follow it (assumption 4). -/
def State.withFetchWord (s : State) (nbits w : Nat) : State :=
  { s with input := .command (BitVec.ofNat 64 (w % 2 ^ nbits)) :: s.input }

end Sys2Proof.Machine
end

