-- ==== Sys2Proof/Machine/Assembler.lean ====
section
/-! DEFINITION. The textual command syntax (spec/30_encoding.md R80, R81): from a program's text to its command words.  The
block never sees text; this is how a host's program becomes the words it delivers.  What the grammar leaves open (the form of
a decimal literal, spaces, empty lines) is assumption 10. -/

namespace Sys2Proof.Machine

/-- One line of a program. -/
inductive AsmLine
  /-- nothing but space and comment -/
  | blank
  /-- a command (R80) -/
  | command (i : Instr)
  /-- `SAMPLE*n` (R81) -/
  | samples (n : Nat)
  /-- `.word64`, the given word as it stands (R81) -/
  | word64 (w : CmdWord)
  deriving DecidableEq, Repr

/-- The words a line stands for (R80, R81). -/
def AsmLine.words : AsmLine → List CmdWord
  | .blank => []
  | .command i => [encode i]
  | .samples n => List.replicate n (encode .sample)
  | .word64 w => [w]

/-- A space or a tab. -/
def isBlankChar (c : Char) : Bool := c == ' ' || c == '\t' || c == '\r'

/-- The characters without the blanks at either end. -/
def trimBlanks (cs : List Char) : List Char :=
  ((cs.dropWhile isBlankChar).reverse.dropWhile isBlankChar).reverse

/-- The pieces of a text between the separators. -/
def piecesAt (sep : Char) : List Char → List (List Char)
  | [] => [[]]
  | c :: cs =>
    if c = sep then [] :: piecesAt sep cs
    else
      match piecesAt sep cs with
      | [] => [[c]]
      | p :: ps => (c :: p) :: ps

/-- A decimal digit's value. -/
def decDigit (c : Char) : Option Nat :=
  if '0' ≤ c ∧ c ≤ '9' then some (c.toNat - '0'.toNat) else none

/-- A hexadecimal digit's value. -/
def hexDigit (c : Char) : Option Nat :=
  if '0' ≤ c ∧ c ≤ '9' then some (c.toNat - '0'.toNat)
  else if 'a' ≤ c ∧ c ≤ 'f' then some (c.toNat - 'a'.toNat + 10)
  else if 'A' ≤ c ∧ c ≤ 'F' then some (c.toNat - 'A'.toNat + 10)
  else none

/-- The number with the given digits, most significant first; `acc` is the value of the digits before them. -/
def digitsFrom (base : Nat) (digit : Char → Option Nat) : Nat → List Char → Option Nat
  | acc, [] => some acc
  | acc, c :: cs =>
    match digit c with
    | some d => digitsFrom base digit (acc * base + d) cs
    | none => none

/-- A number of at least one digit. -/
def number (base : Nat) (digit : Char → Option Nat) (cs : List Char) : Option Nat :=
  match cs with
  | [] => none
  | _ :: _ => digitsFrom base digit 0 cs

/-- R80: the exponent part of a decimal literal, as a sign and a number; nothing is the exponent 0. -/
def decExponent (cs : List Char) : Option (Bool × Nat) :=
  match cs with
  | [] => some (false, 0)
  | '-' :: ds => (number 10 decDigit ds).map fun n => (true, n)
  | '+' :: ds => (number 10 decDigit ds).map fun n => (false, n)
  | ds => (number 10 decDigit ds).map fun n => (false, n)

/-- R80: "A decimal `f32` literal is rounded to the nearest binary32, ties to even": `digits * 10 ^ exponent`, with `frac` of
the digits behind the point. -/
def decToF32 (neg : Bool) (digits frac : Nat) (expNeg : Bool) (exp : Nat) : F32 :=
  let up := if expNeg then 0 else exp
  let down := if expNeg then exp else 0
  pack neg (roundMag (digits * 10 ^ up * 2 ^ 149) (10 ^ (frac + down)))

/-- An unsigned decimal literal: digits, a point with digits, an exponent, the last two optional. -/
def decLiteral (neg : Bool) (cs : List Char) : Option F32 :=
  let mant := cs.takeWhile fun c => c != 'e' && c != 'E'
  let expo := (cs.drop mant.length)
  match (if expo = [] then some (false, 0) else if expo.length = 1 then none else decExponent expo.tail) with
  | none => none
  | some (eneg, e) =>
    match piecesAt '.' mant with
    | [w] => (number 10 decDigit w).map fun n => decToF32 neg n 0 eneg e
    | [w, f] =>
      match number 10 decDigit w, number 10 decDigit f with
      | some _, some _ => (number 10 decDigit (w ++ f)).map fun n => decToF32 neg n f.length eneg e
      | _, _ => none
    | _ => none

/-- R80: an `f32` operand. -/
def f32Operand (cs : List Char) : Option F32 :=
  if cs = "nan".toList then some 0x7FC00000#32
  else if cs = "inf".toList then some 0x7F800000#32
  else if cs = "-inf".toList then some 0xFF800000#32
  else
    match cs with
    | '0' :: 'x' :: ds => if ds.length = 8 then (number 16 hexDigit ds).map (BitVec.ofNat 32) else none
    | '-' :: ds => decLiteral true ds
    | ds => decLiteral false ds

/-- R80: an `index` operand, "unsigned decimal or 0x-hex integer < 2^32". -/
def indexOperand (cs : List Char) : Option Nat :=
  let n :=
    match cs with
    | '0' :: 'x' :: ds => number 16 hexDigit ds
    | ds => number 10 decDigit ds
  match n with
  | some k => if k < 2 ^ 32 then some k else none
  | none => none

/-- R80, R75: the READ_REG command of a register name. -/
def regNames : List (String × Instr) :=
  [("STATUS", .readRegStatus),
   ("ATTACK", .readRegAttack),
   ("DECAY", .readRegDecay),
   ("SUSTAIN", .readRegSustain),
   ("RELEASE", .readRegRelease),
   ("GLIDE", .readRegGlide),
   ("GAIN", .readRegGain),
   ("NVOICES", .readRegNvoices),
   ("SR", .readRegSr)]

/-- R80, R76: the READ_VOICE command of a field name. -/
def fieldNames : List (String × (Nat → Instr)) :=
  [("ACTIVE", .readVoiceActive),
   ("PHASE", .readVoicePhase),
   ("OSC_FREQ", .readVoiceOscFreq),
   ("START", .readVoiceStart),
   ("END", .readVoiceEnd),
   ("N", .readVoiceN),
   ("REL", .readVoiceRel),
   ("N_REL", .readVoiceNRel),
   ("REL_AMP", .readVoiceRelAmp),
   ("RTG_AMP", .readVoiceRtgAmp),
   ("WAVE", .readVoiceWave),
   ("STATE", .readVoiceState),
   ("AMP", .readVoiceAmp)]

/-- R80: the commands whose operand is an `f32`. -/
def f32Names : List (String × (F32 → Instr)) :=
  [("PLAY", .play),
   ("STOP", .stop),
   ("SET_ATTACK", .setAttack),
   ("SET_DECAY", .setDecay),
   ("SET_SUSTAIN", .setSustain),
   ("SET_RELEASE", .setRelease),
   ("SET_GLIDE", .setGlide)]

/-- The entry of a name. -/
def named {α : Type} (names : List (String × α)) (cs : List Char) : Option α :=
  (names.find? fun p => p.1.toList == cs).map fun p => p.2

/-- R81: the count of `SAMPLE*n`, a decimal integer `>= 1`. -/
def sampleCount (cs : List Char) : Option AsmLine :=
  match number 10 decDigit cs with
  | some n => if 1 ≤ n then some (.samples n) else none
  | none => none

/-- R80, R81: a line's mnemonic, in capitals, with its operands. -/
def lineOf (m : List Char) (ops : List (List Char)) : Option AsmLine :=
  match ops with
  | [] =>
    if m = "SAMPLE".toList then some (.command .sample)
    else if m.take 7 = "SAMPLE*".toList then sampleCount (m.drop 7)
    else none
  | [a] =>
    if m = "READ_REG".toList then (named regNames a).map .command
    else if m = ".WORD64".toList then
      match a with
      | '0' :: 'x' :: ds => if ds.length = 16 then (number 16 hexDigit ds).map fun n => .word64 (BitVec.ofNat 64 n) else none
      | _ => none
    else
      match named f32Names m, f32Operand a with
      | some c, some x => some (.command (c x))
      | _, _ => none
  | [a, b] =>
    if m = "READ_VOICE".toList then
      match named fieldNames a, indexOperand b with
      | some c, some k => some (.command (c k))
      | _, _ => none
    else none
  | _ => none

/-- R80: one line of text.  Mnemonics are case-insensitive. -/
def parseLine (cs : List Char) : Option AsmLine :=
  let body := trimBlanks (cs.takeWhile fun c => c != ';')
  let m := body.takeWhile fun c => !isBlankChar c
  let rest := trimBlanks (body.drop m.length)
  if body = [] then some .blank
  else lineOf (m.map Char.toUpper) (if rest = [] then [] else (piecesAt ',' rest).map trimBlanks)

/-- The words of a program whose lines are given; a line that is none of R80 and R81 is refused. -/
def assembleLines : List (List Char) → Option (List CmdWord)
  | [] => some []
  | l :: ls =>
    match parseLine l, assembleLines ls with
    | some a, some ws => some (a.words ++ ws)
    | _, _ => none

/-- R80, R81: the command words of a program's text. -/
def assemble (text : String) : Option (List CmdWord) :=
  assembleLines (piecesAt '\n' text.toList)

end Sys2Proof.Machine
end

