-- ==== Sys2Proof/Safety.lean ====
section
/-! DEFINITION. What holds of the block in every state that a sequence of host inputs reaches from reset: the value
invariants of spec/10_state.md R23 and R24, the legal patch values of R25, the reserved bits of R26 and the parameter ranges
of spec/00_scope.md R6 to R9.  Sequences of inputs are the only runs, and none of them stops (R300). -/

namespace Sys2Proof

open Sys2Proof.Machine

/-- `+0.0 <= a <= hi`, and `a` is not `-0.0`. -/
abbrev UpTo (hi a : F32) : Prop :=
  fle posZero a = true ∧ fle a hi = true ∧ a ≠ negZero

/-- `+0.0 <= a < 1.0`, and `a` is not `-0.0` (R103). -/
abbrev PhaseLegal (a : F32) : Prop :=
  fle posZero a = true ∧ flt a one = true ∧ a ≠ negZero

/-- The legal value of a duration register: `+0.0` or any positive value, `+inf` included (R25). -/
abbrev DurationLegal (a : F32) : Prop :=
  a = posZero ∨ flt posZero a = true

/-- The legal values of the patch registers (R25). -/
abbrev PatchLegal (p : Patch) : Prop :=
  DurationLegal p.attack ∧ DurationLegal p.decay ∧ UpTo one p.sustain ∧ DurationLegal p.release ∧
    DurationLegal p.glide

/-- The value invariants of one voice (R23). -/
abbrev VoiceValues (c : Config) (v : Voice) : Prop :=
  PhaseLegal v.phase ∧ UpTo (nyq c) v.oscFreq ∧ UpTo (nyq c) v.start ∧
    (v.endFreq = posZero ∨ playable v.endFreq = true) ∧ (v.active = true → playable v.endFreq = true) ∧
    UpTo one v.relAmp ∧ UpTo one v.rtgAmp

/-- The counter invariant of one voice (R24). -/
abbrev VoiceCounters (v : Voice) : Prop :=
  (v.rel = true → v.nRel.toNat ≤ v.n.toNat) ∧ (v.rel = false → v.nRel = 0#32)

/-- The invariant of the block: parameters in range (R6 to R9), one register set per voice (R6, R21, R205), the value and
counter invariants of every voice (R23, R24), legal patch values (R25), and `STATUS[31:2]` zero (R26). -/
structure Inv (s : State) : Prop where
  cfg : ConfigWf s.cfg
  pool : s.voices.length = s.cfg.nvoices
  values : ∀ v ∈ s.voices, VoiceValues s.cfg v
  counters : ∀ v ∈ s.voices, VoiceCounters v
  patch : PatchLegal s.patch
  reserved : statusReserved s.status = 0#30

/-- The state after each of the host's inputs `hs`, in order, acted on from `s`; every outcome of a step is a next state. -/
def runInputs (s : State) : List HostInput → Host.Outcome State Fault Refusal
  | [] => .next s
  | h :: hs =>
    match step { s with input := [h] } with
    | .next t => runInputs t hs
    | .fault r => .fault r
    | .refused r => .refused r

end Sys2Proof
end

