-- ==== Sys2Proof/Certificates/Slice0/Obligations.lean ====
section
/-! DEFINITION. The statements about the voice engine, each from the numbered rules it cites.  The helper definitions say a
rule once more in its own terms, flat and on bit patterns, so that a statement does not repeat the model's definition. -/

namespace Sys2Proof

open Sys2Proof.Machine

/-! ### The terms of the statements -/

/-- `r` is the exact value `num / den` (in units of `2^-149`) rounded.  Two clauses.  From R11, rounding to nearest, ties to even:
below the overflow threshold (half a last place above the largest finite value) no finite value is nearer, and a different value
exactly as near means that the last bit of `r` is 0.  From IEEE 754 and not from the spec's words (PRESUMED,
notes/assumptions/11.md), overflow: from the threshold, `2^128 - 2^103`, on `r` is the infinity of the sign of `num`. -/
def RoundsTo (num : Int) (den : Nat) (r : F32) : Prop :=
  (2 * |num| < (2 ^ 25 - 1) * 2 ^ 253 * (den : Int) →
    isFinite r = true ∧
      ∀ c : F32, isFinite c = true →
        |num - unitsOf r * den| ≤ |num - unitsOf c * den| ∧
          (unitsOf c ≠ unitsOf r → |num - unitsOf r * den| = |num - unitsOf c * den| → r.toNat % 2 = 0)) ∧
  ((2 ^ 25 - 1) * 2 ^ 253 * (den : Int) ≤ 2 * |num| →
    r = if num < 0 then 0xFF800000#32 else 0x7F800000#32)

/-- R220 on bit patterns: what a duration setter leaves in its register that held `old`, and whether it raises CV. -/
def durationAfter (x old : F32) : F32 × Bool :=
  if x.toNat ≤ 0x7F800000 then (x, false)                    -- `+0.0` up to `+inf`
  else if x.toNat < 0x80000000 then (old, true)              -- a NaN without sign
  else if x.toNat = 0x80000000 then (0x00000000#32, false)   -- `-0.0`
  else if x.toNat ≤ 0xFF800000 then (0x00000000#32, true)    -- negative, down to `-inf`
  else (old, true)                                           -- a NaN with sign

/-- R221 on bit patterns: what SET_SUSTAIN leaves in `P.SUSTAIN` that held `old`, and whether it raises CV. -/
def levelAfter (x old : F32) : F32 × Bool :=
  if x.toNat ≤ 0x3F800000 then (x, false)                    -- `+0.0` up to `1.0`
  else if x.toNat ≤ 0x7F800000 then (0x3F800000#32, true)    -- above `1.0`, up to `+inf`
  else if x.toNat < 0x80000000 then (old, true)              -- a NaN without sign
  else if x.toNat = 0x80000000 then (0x00000000#32, false)   -- `-0.0`
  else if x.toNat ≤ 0xFF800000 then (0x00000000#32, true)    -- negative, down to `-inf`
  else (old, true)                                           -- a NaN with sign

/-- `STATUS` after a command that raised CV or did not (R303). -/
def statusAfter (cv : Bool) (old : Word32) : Word32 :=
  if cv then old ||| 0x00000002#32 else old

/-- R170, R132: the fields of a voice after PLAY of `x`; `PHASE` and `OSC_FREQ` are kept (R104). -/
def triggered (c : Config) (p : Patch) (x : F32) (v : Voice) : Voice :=
  { active := true
    phase := v.phase
    oscFreq := v.oscFreq
    start := v.oscFreq
    endFreq := x
    n := 0#32
    rel := false
    nRel := 0#32
    relAmp := 0x00000000#32
    rtgAmp := ampAt c p v }

/-- R202, R133: the fields of a voice after STOP of `x`. -/
def stopped (c : Config) (p : Patch) (x : F32) (v : Voice) : Voice :=
  if v.active = true ∧ v.endFreq = x ∧ v.rel = false then
    { v with relAmp := ampAt c p v, nRel := v.n, rel := true }
  else v

/-- R134, R136: the counter after a sample step. -/
def counterAfter (n : Word32) : Word32 :=
  if n = 0xFFFFFFFF#32 then 0xFFFFFFFF#32 else n + 1#32

/-- R152, R100: the frequency a sample step sets. -/
def frequencyAfter (c : Config) (p : Patch) (v : Voice) : F32 :=
  clampF (fadd v.start (fmul (fsub v.endFreq v.start) (ratio (tOf c v.n) p.glide))) 0x00000000#32 (nyq c)

/-- R102: the phase a sample step leaves, from the frequency it has just set. -/
def phaseAfter (c : Config) (p : Patch) (v : Voice) : F32 :=
  let ph := fadd v.phase (fdiv (frequencyAfter c p v) (srf c))
  if fle one ph = true then fsub ph one else ph

/-- R172, R173, R175: the fields of a voice after its sample step. -/
def stepped (c : Config) (p : Patch) (v : Voice) : Voice :=
  if v.active = true then
    { v with
      oscFreq := frequencyAfter c p v
      phase := phaseAfter c p v
      n := counterAfter v.n
      active := !(v.rel && fle p.release (tOf c (counterAfter v.n - v.nRel))) }
  else v

/-- R172 to R174: the sample of voice `j`, from its fields before the step. -/
def sampleOf (c : Config) (p : Patch) (j : Nat) (v : Voice) : F32 :=
  if v.active = true then fmul (fmul (waveValue (waveOf c j) v.phase) (ampAt c p v)) c.gain
  else 0x00000000#32

/-- R203, R204: the mix, a left-to-right sum in voice index order from `+0.0`. -/
def mixOf (c : Config) (p : Patch) (vs : List Voice) : F32 :=
  (vs.mapIdx fun j v => sampleOf c p j v).foldl fadd 0x00000000#32

/-- R200: the distance of a voice's target frequency from `x`. -/
def distanceTo (x : F32) (v : Voice) : F32 := fabs (fsub v.endFreq x)

/-- The commands that append to the response stream (R29). -/
def responds : Instr → Bool
  | .play _ | .stop _ | .setAttack _ | .setDecay _ | .setSustain _ | .setRelease _ | .setGlide _ => false
  | .sample => true
  | .readRegStatus | .readRegAttack | .readRegDecay | .readRegSustain | .readRegRelease | .readRegGlide
  | .readRegGain | .readRegNvoices | .readRegSr => true
  | .readVoiceActive _ | .readVoicePhase _ | .readVoiceOscFreq _ | .readVoiceStart _ | .readVoiceEnd _
  | .readVoiceN _ | .readVoiceRel _ | .readVoiceNRel _ | .readVoiceRelAmp _ | .readVoiceRtgAmp _ | .readVoiceWave _
  | .readVoiceState _ | .readVoiceAmp _ => true

/-- READ_REG and READ_VOICE (R227, R228). -/
def isRead : Instr → Bool
  | .play _ | .stop _ | .sample | .setAttack _ | .setDecay _ | .setSustain _ | .setRelease _ | .setGlide _ => false
  | .readRegStatus | .readRegAttack | .readRegDecay | .readRegSustain | .readRegRelease | .readRegGlide
  | .readRegGain | .readRegNvoices | .readRegSr => true
  | .readVoiceActive _ | .readVoicePhase _ | .readVoiceOscFreq _ | .readVoiceStart _ | .readVoiceEnd _
  | .readVoiceN _ | .readVoiceRel _ | .readVoiceNRel _ | .readVoiceRelAmp _ | .readVoiceRtgAmp _ | .readVoiceWave _
  | .readVoiceState _ | .readVoiceAmp _ => true

/-- READ_VOICE commands with their voice index (R228). -/
def voiceRead : Instr → Option Nat
  | .play _ | .stop _ | .sample | .setAttack _ | .setDecay _ | .setSustain _ | .setRelease _ | .setGlide _ => none
  | .readRegStatus | .readRegAttack | .readRegDecay | .readRegSustain | .readRegRelease | .readRegGlide
  | .readRegGain | .readRegNvoices | .readRegSr => none
  | .readVoiceActive k | .readVoicePhase k | .readVoiceOscFreq k | .readVoiceStart k | .readVoiceEnd k
  | .readVoiceN k | .readVoiceRel k | .readVoiceNRel k | .readVoiceRelAmp k | .readVoiceRtgAmp k | .readVoiceWave k
  | .readVoiceState k | .readVoiceAmp k => some k

/-- The commands that write voice fields (R22). -/
def writesVoices : Instr → Bool
  | .play _ | .stop _ | .sample => true
  | .setAttack _ | .setDecay _ | .setSustain _ | .setRelease _ | .setGlide _ => false
  | .readRegStatus | .readRegAttack | .readRegDecay | .readRegSustain | .readRegRelease | .readRegGlide
  | .readRegGain | .readRegNvoices | .readRegSr => false
  | .readVoiceActive _ | .readVoicePhase _ | .readVoiceOscFreq _ | .readVoiceStart _ | .readVoiceEnd _
  | .readVoiceN _ | .readVoiceRel _ | .readVoiceNRel _ | .readVoiceRelAmp _ | .readVoiceRtgAmp _ | .readVoiceWave _
  | .readVoiceState _ | .readVoiceAmp _ => false

/-- The setters (R25). -/
def isSetter : Instr → Bool
  | .play _ | .stop _ | .sample => false
  | .setAttack _ | .setDecay _ | .setSustain _ | .setRelease _ | .setGlide _ => true
  | .readRegStatus | .readRegAttack | .readRegDecay | .readRegSustain | .readRegRelease | .readRegGlide
  | .readRegGain | .readRegNvoices | .readRegSr => false
  | .readVoiceActive _ | .readVoicePhase _ | .readVoiceOscFreq _ | .readVoiceStart _ | .readVoiceEnd _
  | .readVoiceN _ | .readVoiceRel _ | .readVoiceNRel _ | .readVoiceRelAmp _ | .readVoiceRtgAmp _ | .readVoiceWave _
  | .readVoiceState _ | .readVoiceAmp _ => false

/-- Runs a list of host inputs from `s`. -/
abbrev Runs (s : State) (hs : List HostInput) (t : State) : Prop := runInputs s hs = .next t

end Sys2Proof

open Sys2Proof Sys2Proof.Machine

/-! ### Encoding and decoding -/

/-- R71, R73 to R76: no bit of a command's encoding is dropped. -/
def Obligations.DecodeOfEncodeIsInstr : Prop :=
  ∀ i : Instr, WellFormed i → decode (encode i) = .ok i

/-- R71, R73 to R76: each command has one word, and the decoder makes well-formed commands only. -/
def Obligations.EncodeOfDecodeIsWord : Prop :=
  ∀ (w : CmdWord) (i : Instr), decode w = .ok i → WellFormed i ∧ encode i = w

/-- R304: a word is illegal when, and only when, one of the five causes holds. -/
def Obligations.WordIllegalIffACauseHolds : Prop :=
  ∀ w : CmdWord,
    (∃ c, decode w = .error c) ↔
      (w.extractLsb' 16 16 ≠ 0#16 ∨
        (w.extractLsb' 0 8).toNat ∉ [0x01, 0x02, 0x03, 0x10, 0x11, 0x12, 0x13, 0x14, 0x20, 0x21] ∨
        (0x01 ≤ (w.extractLsb' 0 8).toNat ∧ (w.extractLsb' 0 8).toNat ≤ 0x14 ∧ w.extractLsb' 8 8 ≠ 0#8) ∨
        ((w.extractLsb' 0 8 = 0x03#8 ∨ w.extractLsb' 0 8 = 0x20#8) ∧ w.extractLsb' 32 32 ≠ 0#32) ∨
        (w.extractLsb' 0 8 = 0x20#8 ∧ 8 < (w.extractLsb' 8 8).toNat) ∨
        (w.extractLsb' 0 8 = 0x21#8 ∧ 12 < (w.extractLsb' 8 8).toNat))

/-- Words written out from R71, R74 to R76 decode to the commands they stand for, and reserved ones of R77 to none. -/
def Obligations.WrittenWordsDecode : Prop :=
  decode 0x43DC000000000001#64 = .ok (.play 0x43DC0000#32) ∧
  decode 0x43DC000000000002#64 = .ok (.stop 0x43DC0000#32) ∧
  decode 0x0000000000000003#64 = .ok .sample ∧
  decode 0x3DCCCCCD00000014#64 = .ok (.setGlide 0x3DCCCCCD#32) ∧
  decode 0x0000000000000820#64 = .ok .readRegSr ∧
  decode 0x0000000500000C21#64 = .ok (.readVoiceAmp 5) ∧
  decode 0x0000000000000000#64 = .error .opcUnassigned ∧
  decode 0x0000000100000003#64 = .error .opdNonzero

/-- R52: byte `j` of a serialised word holds bits `[8j+7 : 8j]`, and a bridge that puts eight bytes together gets the word
back, from either side. -/
def Obligations.BytesAreLittleEndian : Prop :=
  (∀ w : CmdWord, cmdOfBytes (cmdBytes w) = some w ∧
      ∀ j < 8, (cmdBytes w)[j]? = some (w.extractLsb' (8 * j) 8)) ∧
  (∀ w : Word32, (respBytes w).length = 4 ∧ ∀ j < 4, (respBytes w)[j]? = some (w.extractLsb' (8 * j) 8)) ∧
  (∀ bs : List Byte, bs.length = 8 → ∃ w, cmdOfBytes bs = some w ∧ cmdBytes w = bs)

/-- R81: `SAMPLE*n` stands for `n` SAMPLE words and `.word64` for the given word, and the program text of
spec/95_test_vectors.md P1's first lines assembles to its words (R80). -/
def Obligations.AssemblerExpandsLines : Prop :=
  (∀ n : Nat, (AsmLine.samples n).words = List.replicate n 0x0000000000000003#64) ∧
  (∀ w : CmdWord, (AsmLine.word64 w).words = [w]) ∧
  assemble "SET_ATTACK 0.02\nPLAY 25.0\nSAMPLE*2 ; twice\nREAD_VOICE N_REL, 0\n.word64 0x0000000100000003" =
    some [0x3CA3D70A00000010#64, 0x41C8000000000001#64, 0x0000000000000003#64, 0x0000000000000003#64,
      0x0000000000000721#64, 0x0000000100000003#64]

/-! ### Steps -/

/-- R2, R73: a command word that decodes to a command runs that command on the state without the word. -/
def Obligations.StepRunsDecodedCommand : Prop :=
  ∀ (s : State) (w : CmdWord) (rest : List HostInput) (i : Instr),
    s.input = .command w :: rest → decode w = .ok i → step s = exec i { s with input := rest }

/-- R302: an illegal word changes no voice, patch register or response and sets `STATUS.ILL`, which stays set in every step but
reset. -/
def Obligations.IllegalWordSetsIllOnly : Prop :=
  (∀ (s : State) (w : CmdWord) (rest : List HostInput) (c : IllegalCause),
    s.input = .command w :: rest → decode w = .error c →
      step s = .next { s with input := rest, status := s.status ||| 0x00000001#32 }) ∧
  (∀ s t : State, step s = .next t → s.input.head? ≠ some .reset →
    s.status.getLsbD 0 = true → t.status.getLsbD 0 = true)

/-- R400, R401: the reset input gives every field its reset value and keeps the parameters. -/
def Obligations.ResetInputGivesResetValues : Prop :=
  ∀ (s : State) (rest : List HostInput), s.input = .reset :: rest →
    ∃ t, step s = .next t ∧ t.cfg = s.cfg ∧ t.voices.length = s.cfg.nvoices ∧
      (∀ v ∈ t.voices, v = ⟨false, 0#32, 0#32, 0#32, 0#32, 0#32, false, 0#32, 0#32, 0#32⟩) ∧
      t.patch = ⟨0#32, 0#32, 0x3F800000#32, 0#32, 0#32⟩ ∧ t.status = 0#32 ∧ t.resp = []

/-- Reset keeps the inputs that follow it.  This is the model's choice (notes/assumptions/12.md). -/
def Obligations.ResetKeepsInputsToCome : Prop :=
  ∀ (s : State) (rest : List HostInput), s.input = .reset :: rest →
    step s = .next { State.resetOf s.cfg with input := rest }

/-- R317, R403: without a command the block waits and holds all its state. -/
def Obligations.WaitingHoldsAllState : Prop :=
  ∀ s : State, s.input = [] → step s = .next s

/-- R29: the host takes the oldest word of the response stream and nothing else changes.  That taking from an empty stream
does nothing is the model's choice (notes/assumptions/5.md). -/
def Obligations.TakeRemovesOldestResponse : Prop :=
  ∀ (s : State) (rest : List HostInput), s.input = .take :: rest →
    (∀ r rs, s.resp = r :: rs → step s = .next { s with input := rest, resp := rs }) ∧
    (s.resp = [] → step s = .next { s with input := rest })

/-! ### Arithmetic -/

/-- R11, R12: addition and subtraction of finite values round the exact sum and difference.  The overflow clause of `RoundsTo` is no rule of the spec: it is
PRESUMED, taken from notes/assumptions/11.md. -/
def Obligations.AddAndSubRoundToNearestEven : Prop :=
  ∀ a b : F32, isFinite a = true → isFinite b = true →
    RoundsTo (unitsOf a + unitsOf b) 1 (fadd a b) ∧ RoundsTo (unitsOf a - unitsOf b) 1 (fsub a b)

/-- R11, R12: multiplication of finite values rounds the exact product.  The overflow clause of `RoundsTo` is no rule of the spec: it is
PRESUMED, taken from notes/assumptions/11.md. -/
def Obligations.MulRoundsToNearestEven : Prop :=
  ∀ a b : F32, isFinite a = true → isFinite b = true →
    RoundsTo (unitsOf a * unitsOf b) (2 ^ 149) (fmul a b)

/-- R11, R12: division of a finite value by a finite value that is not zero rounds the exact quotient.  The overflow clause of `RoundsTo` is no rule of the spec: it is
PRESUMED, taken from notes/assumptions/11.md. -/
def Obligations.DivRoundsToNearestEven : Prop :=
  ∀ a b : F32, isFinite a = true → isFinite b = true → unitsOf b ≠ 0 →
    RoundsTo (unitsOf a * 2 ^ 149 * (unitsOf b).sign) (unitsOf b).natAbs (fdiv a b)

/-- R12, R120: `toF32` rounds an unsigned integer, and is exact up to `2^24`.  The overflow clause of `RoundsTo`, which `n` meets from
`2^128 - 2^103` on, is no rule of the spec: it is PRESUMED, taken from notes/assumptions/11.md. -/
def Obligations.ToF32RoundsToNearestEven : Prop :=
  (∀ n : Nat, RoundsTo ((n : Int) * 2 ^ 149) 1 (toF32 n)) ∧
  (∀ n : Nat, n ≤ 2 ^ 24 → isFinite (toF32 n) = true ∧ unitsOf (toF32 n) = (n : Int) * 2 ^ 149)

/-- R13: the ordered comparisons.  Finite values are compared by value (so `+0.0 == -0.0`), the infinities are the ends of the
order, the order is total without NaN and every comparison with a NaN is false; `beq` is equality of patterns; `isNaN` and
`isFinite` read the exponent field 30..23 and the fraction field 22..0. -/
def Obligations.ComparisonsFollowValues : Prop :=
  (∀ a b : F32, isFinite a = true → isFinite b = true →
    (flt a b = true ↔ unitsOf a < unitsOf b) ∧ (fle a b = true ↔ unitsOf a ≤ unitsOf b) ∧
      (feq a b = true ↔ unitsOf a = unitsOf b)) ∧
  (∀ a : F32, isFinite a = true → flt a 0x7F800000#32 = true ∧ flt 0xFF800000#32 a = true) ∧
  (∀ a b : F32, isNaN a = false → isNaN b = false →
    flt a b = !fle b a ∧ feq a b = (fle a b && fle b a) ∧ fle a 0x7F800000#32 = true ∧ fle 0xFF800000#32 a = true) ∧
  (∀ a b : F32, isNaN a = true ∨ isNaN b = true → flt a b = false ∧ fle a b = false ∧ feq a b = false) ∧
  (∀ a b : F32, beqBits a b = true ↔ a = b) ∧
  (∀ a : F32, (isNaN a = true ↔ a.extractLsb' 23 8 = 0xFF#8 ∧ a.extractLsb' 0 23 ≠ 0#23) ∧
    (isFinite a = true ↔ a.extractLsb' 23 8 ≠ 0xFF#8))

/-- R10: (SIN-RANGE) and (SIN-ZERO). -/
def Obligations.SineHasItsNamedProperties : Prop :=
  (∀ x : F32, fle 0xBF800000#32 (sin32 x) = true ∧ fle (sin32 x) 0x3F800000#32 = true ∧ isNaN (sin32 x) = false) ∧
  sin32 0x00000000#32 = 0x00000000#32

/-- R120: elapsed time is the rounded quotient of the rounded count by the rate; the count is exact up to `2^24`; time starts at
`+0.0` and never decreases with the count.  A count is below `2^32` and a rate at least 1, so the overflow clause of `RoundsTo`
(notes/assumptions/11.md) never applies here. -/
def Obligations.ElapsedTimeIsMonotone : Prop :=
  ∀ c : Config, ConfigWf c →
    (∀ n : Word32, RoundsTo ((n.toNat : Int) * 2 ^ 149) 1 (toF32 n.toNat) ∧
      RoundsTo (unitsOf (toF32 n.toNat) * 2 ^ 149) (unitsOf (srf c)).natAbs (tOf c n)) ∧
    (∀ n : Word32, n.toNat ≤ 2 ^ 24 → unitsOf (toF32 n.toNat) = (n.toNat : Int) * 2 ^ 149) ∧
    tOf c 0#32 = 0x00000000#32 ∧
    ∀ m n : Word32, m.toNat ≤ n.toNat → fle (tOf c m) (tOf c n) = true

/-- R7, R16: `SRf` is the sample rate exactly, and `NYQ` exactly half of it. -/
def Obligations.NyquistIsExactlyHalfTheRate : Prop :=
  ∀ c : Config, ConfigWf c →
    isFinite (srf c) = true ∧ unitsOf (srf c) = (c.sr : Int) * 2 ^ 149 ∧
      isFinite (nyq c) = true ∧ 2 * unitsOf (nyq c) = unitsOf (srf c)

/-- R101: the three waveforms; each stays in `[-1.0, 1.0]` for a legal phase.  SAW doubles the phase exactly, starts at `-1.0`, is
`+0.0` in the middle and never passes `1.0 - 2^-23`; SQUARE is `+1.0` below one half and `-1.0` from there on; SINE starts at
`+0.0`. -/
def Obligations.WaveformsStayInRange : Prop :=
  ∀ p : F32, PhaseLegal p →
    waveValue .sine p = sin32 (fmul 0x40C90FDB#32 p) ∧
    waveValue .saw p = fsub (fmul 0x40000000#32 p) 0x3F800000#32 ∧
    waveValue .square p = (if p.toNat < 0x3F000000 then 0x3F800000#32 else 0xBF800000#32) ∧
    (∀ w, fle 0xBF800000#32 (waveValue w p) = true ∧ fle (waveValue w p) 0x3F800000#32 = true) ∧
    unitsOf (fmul 0x40000000#32 p) = 2 * unitsOf p ∧
    fle (waveValue .saw p) 0x3F7FFFFE#32 = true ∧
    waveValue .saw 0x00000000#32 = 0xBF800000#32 ∧ waveValue .saw 0x3F000000#32 = 0x00000000#32 ∧
    waveValue .sine 0x00000000#32 = 0x00000000#32

/-- R150: the glide ratio is 1.0 without a glide and once `t_of(N) >= P.GLIDE`, `+0.0` at the start of a glide and for ever with an
infinite one, and otherwise the elapsed time over the glide, clamped. -/
def Obligations.GlideRatioRunsFromZeroToOne : Prop :=
  ∀ (c : Config) (p : Patch) (v : Voice), ConfigWf c → DurationLegal p.glide →
    (p.glide = 0x00000000#32 → rampRatio c p v = 0x3F800000#32) ∧
    (p.glide ≠ 0x00000000#32 →
      rampRatio c p v = clampF (fdiv (tOf c v.n) p.glide) 0x00000000#32 0x3F800000#32) ∧
    (fle p.glide (tOf c v.n) = true → rampRatio c p v = 0x3F800000#32) ∧
    (p.glide ≠ 0x00000000#32 → v.n = 0#32 → rampRatio c p v = 0x00000000#32) ∧
    (p.glide = 0x7F800000#32 → rampRatio c p v = 0x00000000#32)

/-! ### PLAY and the allocator -/

/-- R200: with an idle voice in the pool the first idle voice is chosen; with every voice active the first voice of least distance
is stolen. -/
def Obligations.AllocatorPrefersIdleElseNearest : Prop :=
  (∀ (x : F32) (vs : List Voice), (∃ v ∈ vs, v.active = false) →
    ∃ u, vs[selectVoice x vs]? = some u ∧ u.active = false ∧
      ∀ j < selectVoice x vs, ∀ w : Voice, vs[j]? = some w → w.active = true) ∧
  (∀ (x : F32) (vs : List Voice), vs ≠ [] → playable x = true →
    (∀ v ∈ vs, v.active = true ∧ playable v.endFreq = true) →
      ∃ u, vs[selectVoice x vs]? = some u ∧
        ∀ (j : Nat) (w : Voice), vs[j]? = some w →
          fle (distanceTo x u) (distanceTo x w) = true ∧
            (j < selectVoice x vs → flt (distanceTo x u) (distanceTo x w) = true))

/-- R205: the allocator never fails, its voice is in the pool; and no step changes the size of the pool. -/
def Obligations.AllocatorStaysInPool : Prop :=
  (∀ (x : F32) (vs : List Voice), vs ≠ [] → selectVoice x vs < vs.length) ∧
  (∀ s t : State, Inv s → step s = .next t →
    t.voices.length = t.cfg.nvoices ∧ t.cfg.nvoices = s.cfg.nvoices ∧ 1 ≤ t.cfg.nvoices)

/-- R201, R170, R132: PLAY of a finite positive frequency triggers the chosen voice and changes nothing else; PLAY of a zero, an
infinity, a NaN or a negative value raises CV and is discarded. -/
def Obligations.PlayTriggersTheChosenVoice : Prop :=
  (∀ (s : State) (x : F32), s.voices ≠ [] → 0 < x.toNat → x.toNat < 0x7F800000 →
    ∃ v, s.voices[selectVoice x s.voices]? = some v ∧
      exec (.play x) s =
        .next { s with voices := s.voices.set (selectVoice x s.voices) (triggered s.cfg s.patch x v) }) ∧
  (∀ (s : State) (x : F32), x.toNat = 0 ∨ 0x7F800000 ≤ x.toNat →
    exec (.play x) s = .next { s with status := s.status ||| 0x00000002#32 })

/-- R132, R124: a trigger is continuous: the amplitude of the voice right after PLAY is its amplitude right before. -/
def Obligations.RetriggerIsContinuous : Prop :=
  ∀ (s : State) (x : F32), Inv s → playable x = true →
    ∃ t v w, exec (.play x) s = .next t ∧ s.voices[selectVoice x s.voices]? = some v ∧
      t.voices[selectVoice x s.voices]? = some w ∧ w.active = true ∧
      ampAt t.cfg t.patch w = ampAt s.cfg s.patch v

/-! ### STOP -/

/-- R202, R133: STOP releases exactly the active voices whose `END` is the operand bit for bit and that are not yet released;
every other voice and everything else stays. -/
def Obligations.StopReleasesMatchingVoices : Prop :=
  ∀ (s : State) (x : F32),
    ∃ t, exec (.stop x) s = .next t ∧ t = { s with voices := t.voices } ∧ t.voices.length = s.voices.length ∧
      ∀ (j : Nat) (v : Voice), s.voices[j]? = some v → t.voices[j]? = some (stopped s.cfg s.patch x v)

/-- R202: a STOP that matches no active voice changes nothing. -/
def Obligations.StopWithoutMatchChangesNothing : Prop :=
  ∀ (s : State) (x : F32), (∀ v ∈ s.voices, v.active = true → v.endFreq ≠ x) → exec (.stop x) s = .next s

/-- R133: a second STOP of the same frequency changes nothing. -/
def Obligations.StopIsIdempotent : Prop :=
  ∀ (s t : State) (x : F32), exec (.stop x) s = .next t → exec (.stop x) t = .next t

/-- R131: PLAY puts the chosen voice in RETRIGGER_FADE; STOP puts a voice it releases in RELEASE, or in DONE when
`P.RELEASE = +0.0`. -/
def Obligations.PlayAndStopSetEnvelopeState : Prop :=
  (∀ (s t : State) (x : F32) (w : Voice), ConfigWf s.cfg → playable x = true → exec (.play x) s = .next t →
    t.voices[selectVoice x s.voices]? = some w → envState t.cfg t.patch w = .retriggerFade) ∧
  (∀ (s t : State) (x : F32) (j : Nat) (v w : Voice), ConfigWf s.cfg → PatchLegal s.patch →
    exec (.stop x) s = .next t → s.voices[j]? = some v → v.active = true → v.endFreq = x → v.rel = false →
    t.voices[j]? = some w →
      envState t.cfg t.patch w = (if s.patch.release = 0x00000000#32 then .done else .release))

/-- R123, R129: a release starts at the captured amplitude, so with `P.RELEASE` not `+0.0` a STOP does not move the amplitude;
and a voice whose release is done has amplitude `+0.0`. -/
def Obligations.ReleaseRunsFromCaptureToSilence : Prop :=
  (∀ (s t : State) (x : F32) (j : Nat) (v w : Voice), Inv s → s.patch.release ≠ 0x00000000#32 →
    exec (.stop x) s = .next t → s.voices[j]? = some v → v.rel = false → t.voices[j]? = some w →
      ampAt t.cfg t.patch w = ampAt s.cfg s.patch v) ∧
  (∀ s : State, Inv s → ∀ v ∈ s.voices, isDone s.cfg s.patch v = true →
    ampAt s.cfg s.patch v = 0x00000000#32)

/-! ### SAMPLE -/

/-- R203, R172, R204: SAMPLE steps every voice by its own fields alone and appends the mix of their samples. -/
def Obligations.SampleStepsVoicesAndMixes : Prop :=
  ∀ s : State,
    ∃ t, exec .sample s = .next t ∧
      t = { s with voices := t.voices, resp := s.resp ++ [mixOf s.cfg s.patch s.voices] } ∧
      t.voices.length = s.voices.length ∧
      ∀ (j : Nat) (v : Voice), s.voices[j]? = some v → t.voices[j]? = some (stepped s.cfg s.patch v)

/-- R203: with no active voice SAMPLE answers `0x00000000` and changes nothing else. -/
def Obligations.SampleOfIdlePoolIsSilent : Prop :=
  ∀ s : State, (∀ v ∈ s.voices, v.active = false) →
    exec .sample s = .next { s with resp := s.resp ++ [0x00000000#32] }

/-- R203: a voice after SAMPLE depends on that voice alone: two pools that agree in voice `j` agree in it afterwards. -/
def Obligations.SampleKeepsVoicesApart : Prop :=
  ∀ (s s' t t' : State) (j : Nat), s.cfg = s'.cfg → s.patch = s'.patch → s.voices[j]? = s'.voices[j]? →
    exec .sample s = .next t → exec .sample s' = .next t' → t.voices[j]? = t'.voices[j]?

/-- R204: the mix is the left-to-right sum of the voices' samples from `+0.0`, without limiting; every sample is finite, so the mix
is never NaN; it is never `-0.0`; and a partial sum that is infinite stays what it is. -/
def Obligations.MixIsNeverNegativeZeroOrNaN : Prop :=
  (∀ s : State, Inv s →
    ∃ t w, exec .sample s = .next t ∧ t.resp = s.resp ++ [w] ∧
      w = (s.voices.mapIdx fun j v => sampleOf s.cfg s.patch j v).foldl fadd 0x00000000#32 ∧
      (∀ (j : Nat) (v : Voice), s.voices[j]? = some v → isFinite (sampleOf s.cfg s.patch j v) = true) ∧
      w ≠ 0x80000000#32 ∧ isNaN w = false) ∧
  (∀ a x : F32, isInf a = true → isFinite x = true → fadd a x = a)

/-- R174: an active voice's sample is `(raw *f amp) *f GAIN`, and no voice's sample exceeds the gain: `|out| <= |GAIN|`. -/
def Obligations.VoiceSampleIsWithinGain : Prop :=
  ∀ s : State, Inv s → ∀ (j : Nat) (v : Voice), s.voices[j]? = some v →
    (v.active = true → (voiceStep s.cfg s.patch (waveOf s.cfg j) v).1 =
      fmul (fmul (waveValue (waveOf s.cfg j) v.phase) (ampAt s.cfg s.patch v)) s.cfg.gain) ∧
    fle (fabs (voiceStep s.cfg s.patch (waveOf s.cfg j) v).1) (fabs s.cfg.gain) = true

/-- R225, R172: with `P.RELEASE = +0.0` a released voice deactivates at its next sample step. -/
def Obligations.ZeroReleaseStopsAtNextSample : Prop :=
  ∀ (s t u : State) (x : F32) (j : Nat) (v w : Voice), ConfigWf s.cfg → s.patch.release = 0x00000000#32 →
    s.voices[j]? = some v → v.active = true → v.endFreq = x →
    exec (.stop x) s = .next t → exec .sample t = .next u → u.voices[j]? = some w → w.active = false

/-- R410: with `P.RELEASE = +inf` SAMPLE deactivates no voice and a released voice keeps its release amplitude; with
`P.GLIDE = +inf` a voice keeps its `START` frequency; with `P.ATTACK = +inf` the amplitude stays at `+0.0` after the fade. -/
def Obligations.InfiniteDurationsNeverEnd : Prop :=
  ∀ s : State, Inv s → ∃ t, exec .sample s = .next t ∧
    ∀ (j : Nat) (v w : Voice), s.voices[j]? = some v → t.voices[j]? = some w →
      (s.patch.release = 0x7F800000#32 →
        w.active = v.active ∧ (v.rel = true →
          ampAt s.cfg s.patch v = v.relAmp ∧ ampAt t.cfg t.patch w = v.relAmp)) ∧
      (s.patch.glide = 0x7F800000#32 → v.active = true → w.oscFreq = v.start ∧ w.start = v.start) ∧
      (s.patch.attack = 0x7F800000#32 → v.rel = false → flt 0x3C23D70A#32 (tOf s.cfg v.n) = true →
        ampAt s.cfg s.patch v = 0x00000000#32)

/-- R136, R408: a voice released when its counter has saturated never becomes done, unless `P.RELEASE = +0.0`: SAMPLE leaves it
active, with the counter where it is. -/
def Obligations.SaturatedReleaseNeverEnds : Prop :=
  ∀ s : State, Inv s → s.patch.release ≠ 0x00000000#32 → ∃ t, exec .sample s = .next t ∧
    ∀ (j : Nat) (v w : Voice), s.voices[j]? = some v → v.active = true → v.rel = true →
      v.n = 0xFFFFFFFF#32 → v.nRel = 0xFFFFFFFF#32 → t.voices[j]? = some w →
        w.active = true ∧ w.n = 0xFFFFFFFF#32 ∧ isDone t.cfg t.patch w = false ∧
          ampAt t.cfg t.patch w = v.relAmp

/-- R135: every amplitude is in `[+0.0, 1.0]`, never `-0.0` and never NaN. -/
def Obligations.AmplitudeIsInUnitRange : Prop :=
  ∀ s : State, Inv s → ∀ v ∈ s.voices, UpTo one (ampAt s.cfg s.patch v)

/-! ### Envelope -/

/-- R122 to R127, R129, R130: the branches of the envelope in their order, each with the amplitude it gives and the name and code
of its state; `t` is the time since trigger, `tr` the time since release. -/
def Obligations.EnvelopeBranchesGiveAmplitudeAndState : Prop :=
  ∀ (c : Config) (p : Patch) (v : Voice) (t tr eA eD : F32),
    t = tOf c v.n → tr = tOf c (v.n - v.nRel) → eA = fadd 0x3C23D70A#32 p.attack → eD = fadd eA p.decay →
    (v.rel = true →
      ampAt c p v = fmul v.relAmp (fsub 0x3F800000#32 (ratio tr p.release)) ∧
      isDone c p v = fle p.release tr ∧
      (envState c p v).code = (if fle p.release tr then 5#32 else 4#32)) ∧
    (v.rel = false → isDone c p v = false ∧
      (fle t 0x3C23D70A#32 = true →
        ampAt c p v = fmul v.rtgAmp (fsub 0x3F800000#32 (clamp01 (fdiv t 0x3C23D70A#32))) ∧
        (envState c p v).code = 0#32) ∧
      (fle t 0x3C23D70A#32 = false → fle t eA = true →
        ampAt c p v = ratio (fsub t 0x3C23D70A#32) p.attack ∧ (envState c p v).code = 1#32) ∧
      (fle t 0x3C23D70A#32 = false → fle t eA = false → fle t eD = true →
        ampAt c p v = fsub 0x3F800000#32 (fmul (fsub 0x3F800000#32 p.sustain)
          (ratio (fsub (fsub t 0x3C23D70A#32) p.attack) p.decay)) ∧
        (envState c p v).code = 2#32) ∧
      (fle t 0x3C23D70A#32 = false → fle t eA = false → fle t eD = false →
        ampAt c p v = p.sustain ∧ (envState c p v).code = 3#32))

/-- R131, R137: a voice in DONE stays in DONE under every command but a PLAY and a write of `P.RELEASE`. -/
def Obligations.DoneIsTerminalUntilTrigger : Prop :=
  ∀ (i : Instr) (s t : State) (j : Nat) (v w : Voice), Inv s → exec i s = .next t →
    (∀ x, i ≠ .play x) → (∀ x, i ≠ .setRelease x) →
    s.voices[j]? = some v → t.voices[j]? = some w →
    envState s.cfg s.patch v = .done → envState t.cfg t.patch w = .done

/-! ### Setters -/

/-- R220, R222, R223, R225, R226: the four duration setters, with every other field unchanged. -/
def Obligations.DurationSettersSanitise : Prop :=
  ∀ (s : State) (x : F32),
    exec (.setAttack x) s = .next { s with
      patch := { s.patch with attack := (durationAfter x s.patch.attack).1 }
      status := statusAfter (durationAfter x s.patch.attack).2 s.status } ∧
    exec (.setDecay x) s = .next { s with
      patch := { s.patch with decay := (durationAfter x s.patch.decay).1 }
      status := statusAfter (durationAfter x s.patch.decay).2 s.status } ∧
    exec (.setRelease x) s = .next { s with
      patch := { s.patch with release := (durationAfter x s.patch.release).1 }
      status := statusAfter (durationAfter x s.patch.release).2 s.status } ∧
    exec (.setGlide x) s = .next { s with
      patch := { s.patch with glide := (durationAfter x s.patch.glide).1 }
      status := statusAfter (durationAfter x s.patch.glide).2 s.status }

/-- R221, R224: SET_SUSTAIN, with every other field unchanged. -/
def Obligations.SustainSetterSanitises : Prop :=
  ∀ (s : State) (x : F32),
    exec (.setSustain x) s = .next { s with
      patch := { s.patch with sustain := (levelAfter x s.patch.sustain).1 }
      status := statusAfter (levelAfter x s.patch.sustain).2 s.status }

/-! ### Read commands -/

/-- R227, R26, R27: each READ_REG appends its register's content and changes nothing else. -/
def Obligations.ReadRegAppendsItsRegister : Prop :=
  ∀ s : State,
    exec .readRegStatus s = .next { s with resp := s.resp ++ [s.status] } ∧
    exec .readRegAttack s = .next { s with resp := s.resp ++ [s.patch.attack] } ∧
    exec .readRegDecay s = .next { s with resp := s.resp ++ [s.patch.decay] } ∧
    exec .readRegSustain s = .next { s with resp := s.resp ++ [s.patch.sustain] } ∧
    exec .readRegRelease s = .next { s with resp := s.resp ++ [s.patch.release] } ∧
    exec .readRegGlide s = .next { s with resp := s.resp ++ [s.patch.glide] } ∧
    exec .readRegGain s = .next { s with resp := s.resp ++ [s.cfg.gain] } ∧
    exec .readRegNvoices s = .next { s with resp := s.resp ++ [BitVec.ofNat 32 s.cfg.nvoices] } ∧
    exec .readRegSr s = .next { s with resp := s.resp ++ [BitVec.ofNat 32 s.cfg.sr] }

/-- R228: each READ_VOICE of a voice in the pool appends that voice's field and changes nothing else; with an index outside the
pool each raises CV, appends nothing and changes nothing else. -/
def Obligations.ReadVoiceAppendsItsField : Prop :=
  (∀ (s : State) (k : Nat) (v : Voice), k < s.cfg.nvoices → s.voices[k]? = some v →
    exec (.readVoiceActive k) s = .next { s with resp := s.resp ++ [if v.active then 1#32 else 0#32] } ∧
    exec (.readVoicePhase k) s = .next { s with resp := s.resp ++ [v.phase] } ∧
    exec (.readVoiceOscFreq k) s = .next { s with resp := s.resp ++ [v.oscFreq] } ∧
    exec (.readVoiceStart k) s = .next { s with resp := s.resp ++ [v.start] } ∧
    exec (.readVoiceEnd k) s = .next { s with resp := s.resp ++ [v.endFreq] } ∧
    exec (.readVoiceN k) s = .next { s with resp := s.resp ++ [v.n] } ∧
    exec (.readVoiceRel k) s = .next { s with resp := s.resp ++ [if v.rel then 1#32 else 0#32] } ∧
    exec (.readVoiceNRel k) s = .next { s with resp := s.resp ++ [v.nRel] } ∧
    exec (.readVoiceRelAmp k) s = .next { s with resp := s.resp ++ [v.relAmp] } ∧
    exec (.readVoiceRtgAmp k) s = .next { s with resp := s.resp ++ [v.rtgAmp] } ∧
    (∀ w, s.cfg.wave[k]? = some w → exec (.readVoiceWave k) s = .next { s with
      resp := s.resp ++ [match w with | .sine => 0#32 | .saw => 1#32 | .square => 2#32] }) ∧
    exec (.readVoiceState k) s = .next { s with resp := s.resp ++ [(envState s.cfg s.patch v).code] } ∧
    exec (.readVoiceAmp k) s = .next { s with resp := s.resp ++ [ampAt s.cfg s.patch v] }) ∧
  (∀ (s : State) (i : Instr) (k : Nat), voiceRead i = some k → s.cfg.nvoices ≤ k →
    exec i s = .next { s with status := s.status ||| 0x00000002#32 })

/-- R56, R227, R228: a READ_REG, and a READ_VOICE of a voice in the pool, appends one word and changes nothing else, `STATUS`
included, and issued again appends the same word; a READ_VOICE outside the pool sets CV and changes nothing else, and issued again
changes nothing. -/
def Obligations.ReadsAreIdempotent : Prop :=
  ∀ (i : Instr) (s t : State), isRead i = true → exec i s = .next t →
    ((∀ k, voiceRead i = some k → k < s.cfg.nvoices) →
      ∃ w, t = { s with resp := s.resp ++ [w] } ∧ exec i t = .next { t with resp := t.resp ++ [w] }) ∧
    (∀ k, voiceRead i = some k → s.cfg.nvoices ≤ k →
      t = { s with status := s.status ||| 0x00000002#32 } ∧ exec i t = .next t)

/-- R229: a setter's value is what the next command reads. -/
def Obligations.SetterIsVisibleAtOnce : Prop :=
  ∀ (s : State) (x : F32), x.toNat ≤ 0x7F800000 →
    Runs s [.command (encode (.setAttack x)), .command (encode .readRegAttack)]
      { s with input := [], patch := { s.patch with attack := x }, resp := s.resp ++ [x] } ∧
    Runs s [.command (encode (.setDecay x)), .command (encode .readRegDecay)]
      { s with input := [], patch := { s.patch with decay := x }, resp := s.resp ++ [x] } ∧
    (x.toNat ≤ 0x3F800000 → Runs s [.command (encode (.setSustain x)), .command (encode .readRegSustain)]
      { s with input := [], patch := { s.patch with sustain := x }, resp := s.resp ++ [x] }) ∧
    Runs s [.command (encode (.setRelease x)), .command (encode .readRegRelease)]
      { s with input := [], patch := { s.patch with release := x }, resp := s.resp ++ [x] } ∧
    Runs s [.command (encode (.setGlide x)), .command (encode .readRegGlide)]
      { s with input := [], patch := { s.patch with glide := x }, resp := s.resp ++ [x] }

/-! ### The whole machine -/

/-- R300: no error and no operand stops the block: every step and every command gives a next state. -/
def Obligations.NothingStopsTheBlock : Prop :=
  (∀ s : State, ∃ t, step s = .next t) ∧ (∀ (i : Instr) (s : State), ∃ t, exec i s = .next t)

/-- R306, R26: a command that executes raises no ILL and at most CV, an illegal word raises ILL and no CV, and no step but reset
clears a status bit. -/
def Obligations.StatusBitsAreSticky : Prop :=
  (∀ (i : Instr) (s t : State), exec i s = .next t → t.status = s.status ∨ t.status = s.status ||| 0x00000002#32) ∧
  (∀ (w : CmdWord) (c : IllegalCause) (s t : State), decode w = .error c → runWord w s = .next t →
    t.status = s.status ||| 0x00000001#32) ∧
  (∀ s t : State, step s = .next t → s.input.head? ≠ some .reset →
    ∀ b, s.status.getLsbD b = true → t.status.getLsbD b = true)

/-- R29, R55: exactly SAMPLE, READ_REG and READ_VOICE append to the response stream, at most one word each; SAMPLE and READ_REG
always append one. -/
def Obligations.OnlyThreeCommandsRespond : Prop :=
  ∀ (i : Instr) (s t : State), exec i s = .next t →
    (responds i = false → t.resp = s.resp) ∧
    (responds i = true → t.resp = s.resp ∨ ∃ w, t.resp = s.resp ++ [w]) ∧
    (responds i = true → voiceRead i = none → ∃ w, t.resp = s.resp ++ [w])

/-- R21, R22, R25 to R27, R29, R105, R305, R401: no command writes state that is not its own.  No command changes the parameters,
the size of the pool or the inputs to come; each patch register is changed by its own setter alone; of a voice's fields PLAY
leaves `PHASE` and `OSC_FREQ`, STOP all but `REL`, `N_REL` and `REL_AMP`, SAMPLE all but `PHASE`, `OSC_FREQ`, `N` and `ACTIVE`, and
every other command leaves all of them; the responses already there stay, and only SAMPLE and the reads add to them; `STATUS` is
changed by CV alone, and not by STOP, SAMPLE, READ_REG or a READ_VOICE in the pool. -/
def Obligations.EachCommandWritesOnlyItsOwn : Prop :=
  ∀ (i : Instr) (s t : State), exec i s = .next t →
    (t.cfg = s.cfg ∧ t.voices.length = s.voices.length ∧ t.input = s.input) ∧
    (((∀ x, i ≠ .setAttack x) → t.patch.attack = s.patch.attack) ∧
      ((∀ x, i ≠ .setDecay x) → t.patch.decay = s.patch.decay) ∧
      ((∀ x, i ≠ .setSustain x) → t.patch.sustain = s.patch.sustain) ∧
      ((∀ x, i ≠ .setRelease x) → t.patch.release = s.patch.release) ∧
      ((∀ x, i ≠ .setGlide x) → t.patch.glide = s.patch.glide)) ∧
    (writesVoices i = false → t.voices = s.voices) ∧
    (∀ (j : Nat) (v w : Voice), s.voices[j]? = some v → t.voices[j]? = some w →
      ((∀ x, i = .play x → w.phase = v.phase ∧ w.oscFreq = v.oscFreq) ∧
        (∀ x, i = .stop x → w = { v with rel := w.rel, nRel := w.nRel, relAmp := w.relAmp }) ∧
        (i = .sample → w = { v with phase := w.phase, oscFreq := w.oscFreq, n := w.n, active := w.active }))) ∧
    ((responds i = false → t.resp = s.resp) ∧ ∃ ws, t.resp = s.resp ++ ws) ∧
    ((t.status = s.status ∨ t.status = s.status ||| 0x00000002#32) ∧
      (∀ x, i = .stop x → t.status = s.status) ∧
      (responds i = true → (∀ k, voiceRead i = some k → k < s.cfg.nvoices) → t.status = s.status))

/-- R30, R175: only SAMPLE clears `ACTIVE`, only PLAY sets it, only STOP sets `REL` and only PLAY clears it. -/
def Obligations.VoiceFlagsChangeOnlyAsListed : Prop :=
  ∀ (i : Instr) (s t : State) (j : Nat) (v w : Voice), exec i s = .next t →
    s.voices[j]? = some v → t.voices[j]? = some w →
      (v.active = true → w.active = false → i = .sample) ∧
      (v.active = false → w.active = true → ∃ x, i = .play x) ∧
      (v.rel = false → w.rel = true → ∃ x, i = .stop x) ∧
      (v.rel = true → w.rel = false → ∃ x, i = .play x)

/-- R21 to R26, R402: the state after reset meets the invariant, whatever the parameters; so does `State.reset`, whose parameters
are the model's choice (notes/assumptions/1.md). -/
def Obligations.ResetStateMeetsTheInvariant : Prop :=
  (∀ c : Config, ConfigWf c → Inv (State.resetOf c)) ∧ Inv State.reset

/-- R402: in the reset state every invariant holds, every voice is idle, SAMPLE answers `0x00000000`, every amplitude is `+0.0` and
every envelope is in state 0. -/
def Obligations.ResetStateIsSilent : Prop :=
  ∀ c : Config, ConfigWf c →
    Inv (State.resetOf c) ∧
    exec .sample (State.resetOf c) = .next { State.resetOf c with resp := [0x00000000#32] } ∧
    ∀ v ∈ (State.resetOf c).voices,
      v.active = false ∧ ampAt c (State.resetOf c).patch v = 0x00000000#32 ∧
        envState c (State.resetOf c).patch v = .retriggerFade

/-- R23 to R26, R103: the invariant is kept by every step, whatever the host does. -/
def Obligations.StepKeepsTheInvariant : Prop :=
  ∀ s t : State, Inv s → step s = .next t → Inv t

/-- R23: every state that any sequence of host inputs reaches from reset meets the invariant, and every such sequence runs to
its end. -/
def Obligations.EveryRunKeepsTheInvariant : Prop :=
  ∀ (c : Config) (hs : List HostInput), ConfigWf c → ∃ t, Runs (State.resetOf c) hs t ∧ Inv t
end

