-- ==== Sys2Proof/Laws/Rounding.lean ====
section
/-! SUPPORT. What rounding does, once: `roundMag` keeps representable values, is monotone, and gives a nearest value with
ties to even (spec/00_scope.md R11). -/

namespace Sys2Proof.Laws

open Sys2Proof.Machine

/-! ### The values of magnitude bits -/

theorem unitsOfMag_small {m : Nat} (h : m < 2 ^ 24) : unitsOfMag m = m := by
  unfold unitsOfMag
  split
  · rfl
  · have : m / 2 ^ 23 = 1 := by omega
    rw [this]; omega

/-- The pattern with `e` in the exponent places and the 24-bit integer `r` added to it. -/
theorem unitsOfMag_scaled {e r : Nat} (hlo : 2 ^ 23 ≤ r) (hhi : r ≤ 2 ^ 24) :
    unitsOfMag (e * 2 ^ 23 + r) = r * 2 ^ e := by
  unfold unitsOfMag
  rw [if_neg (by omega)]
  rcases Nat.lt_or_ge r (2 ^ 24) with h | h
  · have h1 : (e * 2 ^ 23 + r) / 2 ^ 23 - 1 = e := by omega
    have h2 : 2 ^ 23 + (e * 2 ^ 23 + r) % 2 ^ 23 = r := by omega
    rw [h1, h2]
  · have h0 : r = 2 ^ 24 := by omega
    have h1 : (e * 2 ^ 23 + r) / 2 ^ 23 - 1 = e + 1 := by omega
    have h2 : 2 ^ 23 + (e * 2 ^ 23 + r) % 2 ^ 23 = 2 ^ 23 := by omega
    rw [h1, h2, h0, pow_succ]; ring

/-- Every magnitude is a 24-bit integer shifted by its exponent. -/
theorem mag_cases (m : Nat) :
    m < 2 ^ 23 ∨ ∃ e r, 2 ^ 23 ≤ r ∧ r < 2 ^ 24 ∧ m = e * 2 ^ 23 + r ∧ unitsOfMag m = r * 2 ^ e := by
  rcases Nat.lt_or_ge m (2 ^ 23) with h | h
  · exact .inl h
  · refine .inr ⟨m / 2 ^ 23 - 1, 2 ^ 23 + m % 2 ^ 23, by omega, by omega, by omega, ?_⟩
    unfold unitsOfMag
    rw [if_neg (by omega)]

theorem unitsOfMag_lt_succ (m : Nat) : unitsOfMag m < unitsOfMag (m + 1) := by
  rcases mag_cases m with h | ⟨e, r, h1, h2, h3, h4⟩
  · rw [unitsOfMag_small (by omega), unitsOfMag_small (by omega)]; omega
  · have : m + 1 = e * 2 ^ 23 + (r + 1) := by omega
    rw [h4, this, unitsOfMag_scaled (by omega) (by omega)]
    exact Nat.mul_lt_mul_of_pos_right (by omega) (by positivity)

/-- The order of magnitude bits is the order of the values. -/
theorem unitsOfMag_strictMono : StrictMono unitsOfMag :=
  strictMono_nat_of_lt_succ unitsOfMag_lt_succ

@[simp] theorem unitsOfMag_zero : unitsOfMag 0 = 0 := rfl

theorem unitsOfMag_one_val : unitsOfMag 0x3F800000 = 2 ^ 149 := by decide

theorem unitsOfMag_le_iff {a b : Nat} : unitsOfMag a ≤ unitsOfMag b ↔ a ≤ b :=
  unitsOfMag_strictMono.le_iff_le

theorem unitsOfMag_pos {m : Nat} (h : 0 < m) : 0 < unitsOfMag m := by
  have := unitsOfMag_strictMono h
  simpa using this

/-! ### Rounding to an integer -/

theorem roundNearest_ge (n d : Nat) : n / d ≤ roundNearest n d := by
  unfold roundNearest; split
  · exact le_rfl
  · split <;> omega

theorem roundNearest_le (n d : Nat) : roundNearest n d ≤ n / d + 1 := by
  unfold roundNearest; split
  · omega
  · split <;> omega

theorem roundNearest_mul {k d : Nat} (hd : 0 < d) : roundNearest (k * d) d = k := by
  unfold roundNearest
  rw [Nat.mul_mod_left, Nat.mul_div_cancel _ hd, if_pos (by omega)]

theorem roundNearest_mono {n d n' d' : Nat} (hd : 0 < d) (hd' : 0 < d') (h : n * d' ≤ n' * d) :
    roundNearest n d ≤ roundNearest n' d' := by
  have hq : n / d ≤ n' / d' := by
    rw [Nat.le_div_iff_mul_le hd']
    have h1 : n / d * d ≤ n := Nat.div_mul_le_self n d
    have h2 : n / d * d' * d ≤ n' * d := by nlinarith
    exact Nat.le_of_mul_le_mul_right h2 hd
  rcases Nat.lt_or_ge (n / d) (n' / d') with hlt | hge
  · exact (roundNearest_le n d).trans (by have := roundNearest_ge n' d'; omega)
  · have heq : n / d = n' / d' := le_antisymm hq hge
    have e1 : d * (n / d) + n % d = n := Nat.div_add_mod n d
    have e2 : d' * (n' / d') + n' % d' = n' := Nat.div_add_mod n' d'
    have hr : n % d * d' ≤ n' % d' * d := by
      rw [← heq] at e2; nlinarith
    unfold roundNearest
    rw [← heq]
    split_ifs with a1 a2 a3 a4 a5 a6 <;> try omega
    · exfalso; nlinarith
    · exfalso; nlinarith
    · exfalso; nlinarith

/-- The rounded integer lies within half of `n / d`, and at exactly half it is even. -/
theorem roundNearest_half {n d : Nat} (hd : 0 < d) :
    2 * n ≤ (2 * roundNearest n d + 1) * d ∧ (2 * roundNearest n d) * d ≤ 2 * n + d ∧
      ((2 * n = (2 * roundNearest n d + 1) * d ∨ (2 * roundNearest n d) * d = 2 * n + d) →
        roundNearest n d % 2 = 0) := by
  have e1 : d * (n / d) + n % d = n := Nat.div_add_mod n d
  have hlt : n % d < d := Nat.mod_lt n hd
  unfold roundNearest
  generalize n / d = q at e1 ⊢
  generalize n % d = r at e1 hlt ⊢
  have h0 : (2 * q + 1) * d = 2 * (d * q) + d := by ring
  have h1 : 2 * q * d = 2 * (d * q) := by ring
  have h2 : (2 * (q + 1) + 1) * d = 2 * (d * q) + 3 * d := by ring
  have h3 : 2 * (q + 1) * d = 2 * (d * q) + 2 * d := by ring
  split_ifs with a b
  · rw [h0, h1]; omega
  · rw [h2, h3]; omega
  · rcases Nat.mod_two_eq_zero_or_one q with hq | hq
    · simp only [hq, Nat.add_zero]; rw [h0, h1]; exact ⟨by omega, by omega, fun _ => trivial⟩
    · simp only [hq]; rw [h2, h3]; omega

/-- No integer is nearer to `n / d` than the rounded one. -/
theorem roundNearest_nearest {n d : Nat} (hd : 0 < d) (k : Nat) :
    |(n : Int) - roundNearest n d * d| ≤ |(n : Int) - k * d| := by
  obtain ⟨h1, h2, -⟩ := roundNearest_half (n := n) hd
  generalize roundNearest n d = r at h1 h2 ⊢
  rcases Nat.lt_trichotomy k r with h | rfl | h
  · obtain ⟨j, rfl⟩ := Nat.exists_eq_add_of_lt h
    rw [abs_le', le_abs, le_abs]
    have : 0 ≤ (j : Int) * d := by positivity
    push_cast at *
    constructor <;> left <;> nlinarith
  · exact le_rfl
  · obtain ⟨j, rfl⟩ := Nat.exists_eq_add_of_lt h
    rw [abs_le', le_abs, le_abs]
    have : 0 ≤ (j : Int) * d := by positivity
    push_cast at *
    constructor <;> right <;> nlinarith

/-- Another integer exactly as near means that the rounded one is even. -/
theorem roundNearest_tie {n d : Nat} (hd : 0 < d) {k : Nat} (hne : k ≠ roundNearest n d)
    (htie : |(n : Int) - roundNearest n d * d| = |(n : Int) - k * d|) : roundNearest n d % 2 = 0 := by
  obtain ⟨h1, h2, h3⟩ := roundNearest_half (n := n) hd
  apply h3
  generalize roundNearest n d = r at h1 h2 hne htie ⊢
  rcases Nat.lt_or_gt_of_ne hne with h | h
  · right
    obtain ⟨j, rfl⟩ := Nat.exists_eq_add_of_lt h
    have hj : (0 : Int) ≤ j * d := by positivity
    zify at *
    rcases abs_eq_abs.mp htie with e | e <;> nlinarith
  · left
    obtain ⟨j, rfl⟩ := Nat.exists_eq_add_of_lt h
    have hj : (0 : Int) ≤ j * d := by positivity
    zify at *
    rcases abs_eq_abs.mp htie with e | e <;> nlinarith

/-! ### Rounding to a binary32 magnitude -/

theorem lt_of_dropOf (q : Nat) : q < 2 ^ (24 + dropOf q) := by
  have h : q < 2 ^ (Nat.log2 q + 1) := Nat.lt_log2_self
  exact h.trans_le (Nat.pow_le_pow_right (by omega) (by unfold dropOf; omega))

theorem ge_of_dropOf {q : Nat} (h : dropOf q ≠ 0) : 2 ^ (23 + dropOf q) ≤ q := by
  have hq : q ≠ 0 := by rintro rfl; exact h (by decide)
  have h1 : 2 ^ Nat.log2 q ≤ q := Nat.log2_self_le hq
  have h2 : 23 + dropOf q = Nat.log2 q := by unfold dropOf at *; omega
  rwa [h2]

theorem dropOf_mono {a b : Nat} (h : a ≤ b) : dropOf a ≤ dropOf b := by
  by_contra hc
  have h1 := lt_of_dropOf b
  have h2 := ge_of_dropOf (q := a) (by omega)
  have h3 : 2 ^ (24 + dropOf b) ≤ 2 ^ (23 + dropOf a) := Nat.pow_le_pow_right (by omega) (by omega)
  omega

theorem dropOf_eq {q e : Nat} (hlo : 2 ^ 23 * 2 ^ e ≤ q) (hhi : q < 2 ^ 24 * 2 ^ e) : dropOf q = e := by
  have h1 := lt_of_dropOf q
  rw [← pow_add] at hlo hhi
  by_contra hc
  rcases Nat.lt_or_ge (dropOf q) e with h | h
  · have : 2 ^ (24 + dropOf q) ≤ 2 ^ (23 + e) := Nat.pow_le_pow_right (by omega) (by omega)
    omega
  · have h2 := ge_of_dropOf (q := q) (by omega)
    have : 2 ^ (24 + e) ≤ 2 ^ (23 + dropOf q) := Nat.pow_le_pow_right (by omega) (by omega)
    omega

theorem dropOf_small {q : Nat} (h : q < 2 ^ 24) : dropOf q = 0 := by
  by_contra hc
  have h2 := ge_of_dropOf hc
  have : 2 ^ 24 ≤ 2 ^ (23 + dropOf q) := Nat.pow_le_pow_right (by omega) (by omega)
  omega

/-- The kept integer: at most 24 bits and a carry, and exactly 24 bits once places are dropped. -/
theorem kept_bounds (n d : Nat) :
    roundNearest n (d * 2 ^ dropOf (n / d)) ≤ 2 ^ 24 ∧
      (dropOf (n / d) ≠ 0 → 2 ^ 23 ≤ roundNearest n (d * 2 ^ dropOf (n / d))) := by
  have hpos : 0 < 2 ^ dropOf (n / d) := by positivity
  have hdiv : n / (d * 2 ^ dropOf (n / d)) = n / d / 2 ^ dropOf (n / d) := by rw [Nat.div_div_eq_div_mul]
  constructor
  · refine (roundNearest_le _ _).trans ?_
    rw [hdiv]
    have := lt_of_dropOf (n / d)
    rw [pow_add] at this
    have := (Nat.div_lt_iff_lt_mul hpos).mpr this
    omega
  · intro h
    refine le_trans ?_ (roundNearest_ge _ _)
    rw [hdiv, Nat.le_div_iff_mul_le hpos, ← pow_add]
    exact ge_of_dropOf h

/-- The rounded magnitude before infinity cuts it off. -/
def rawMag (n d : Nat) : Nat := dropOf (n / d) * 2 ^ 23 + roundNearest n (d * 2 ^ dropOf (n / d))

theorem roundMag_eq (n d : Nat) : roundMag n d = min (rawMag n d) infMag := rfl

theorem roundMag_le_inf (n d : Nat) : roundMag n d ≤ infMag := Nat.min_le_right _ _

theorem unitsOfMag_rawMag (n d : Nat) :
    unitsOfMag (rawMag n d) = roundNearest n (d * 2 ^ dropOf (n / d)) * 2 ^ dropOf (n / d) := by
  obtain ⟨h1, h2⟩ := kept_bounds n d
  unfold rawMag
  rcases Nat.lt_or_ge (roundNearest n (d * 2 ^ dropOf (n / d))) (2 ^ 23) with h | h
  · have h0 : dropOf (n / d) = 0 := by by_contra hc; exact absurd (h2 hc) (by omega)
    rw [h0] at h ⊢
    rw [unitsOfMag_small (by omega)]; omega
  · exact unitsOfMag_scaled h h1

/-- A representable value rounds to itself. -/
theorem roundMag_exact {m d : Nat} (hd : 0 < d) (hm : m ≤ infMag) : roundMag (unitsOfMag m * d) d = m := by
  have key : rawMag (unitsOfMag m * d) d = m := by
    unfold rawMag
    rw [Nat.mul_div_cancel _ hd]
    rcases mag_cases m with h | ⟨e, r, h1, h2, h3, h4⟩
    · rw [unitsOfMag_small (by omega), dropOf_small (by omega), pow_zero, mul_one, roundNearest_mul hd]; omega
    · have hdrop : dropOf (unitsOfMag m) = e := by
        rw [h4]
        exact dropOf_eq (Nat.mul_le_mul_right _ h1) (Nat.mul_lt_mul_of_pos_right h2 (by positivity))
      rw [hdrop, h4, show r * 2 ^ e * d = r * (d * 2 ^ e) by ring, roundNearest_mul (by positivity)]
      exact h3.symm
  rw [roundMag_eq, key, Nat.min_eq_left hm]

/-- Rounding is monotone in the exact value. -/
theorem roundMag_mono {n d n' d' : Nat} (hd : 0 < d) (hd' : 0 < d') (h : n * d' ≤ n' * d) :
    roundMag n d ≤ roundMag n' d' := by
  have hq : n / d ≤ n' / d' := by
    rw [Nat.le_div_iff_mul_le hd']
    have h1 : n / d * d ≤ n := Nat.div_mul_le_self n d
    exact Nat.le_of_mul_le_mul_right (by nlinarith) hd
  suffices rawMag n d ≤ rawMag n' d' by
    rw [roundMag_eq, roundMag_eq]; exact min_le_min_right _ this
  unfold rawMag
  rcases Nat.lt_or_ge (dropOf (n / d)) (dropOf (n' / d')) with hlt | hge
  · have a := (kept_bounds n d).1
    have b := (kept_bounds n' d').2 (by omega)
    have : (dropOf (n / d) + 1) * 2 ^ 23 ≤ dropOf (n' / d') * 2 ^ 23 := Nat.mul_le_mul_right _ hlt
    omega
  · rw [le_antisymm (dropOf_mono hq) hge]
    refine Nat.add_le_add_left (roundNearest_mono (by positivity) (by positivity) ?_) _
    calc n * (d' * 2 ^ dropOf (n' / d')) = n * d' * 2 ^ dropOf (n' / d') := by ring
      _ ≤ n' * d * 2 ^ dropOf (n' / d') := Nat.mul_le_mul_right _ h
      _ = n' * (d * 2 ^ dropOf (n' / d')) := by ring

/-- A value of at most a representable one rounds to at most it. -/
theorem roundMag_le {n d m : Nat} (hd : 0 < d) (hm : m ≤ infMag) (h : n ≤ unitsOfMag m * d) : roundMag n d ≤ m :=
  (roundMag_mono hd hd (Nat.mul_le_mul_right _ h)).trans_eq (roundMag_exact hd hm)

/-- A value of at least a representable one rounds to at least it. -/
theorem le_roundMag {n d m : Nat} (hd : 0 < d) (hm : m ≤ infMag) (h : unitsOfMag m * d ≤ n) : m ≤ roundMag n d :=
  (roundMag_exact hd hm).symm.trans_le (roundMag_mono hd hd (Nat.mul_le_mul_right _ h))

@[simp] theorem roundMag_zero (d : Nat) : roundMag 0 d = 0 := by
  unfold roundMag roundNearest
  rcases Nat.eq_zero_or_pos d with rfl | h
  · decide
  · simp [dropOf, h, infMag]

/-- The value of a magnitude is a multiple of `2 ^ e`, or it lies below the 24-bit multiples of it. -/
theorem unitsOfMag_multiple_or_lt (m e : Nat) :
    (∃ k, unitsOfMag m = k * 2 ^ e) ∨ (e ≠ 0 ∧ unitsOfMag m < 2 ^ 23 * 2 ^ e) := by
  rcases Nat.eq_zero_or_pos e with rfl | he
  · exact .inl ⟨unitsOfMag m, by simp⟩
  rcases mag_cases m with h | ⟨e', r', -, h2, -, h4⟩
  · refine .inr ⟨he.ne', ?_⟩
    rw [unitsOfMag_small (by omega)]
    have : 2 ^ 23 * 1 ≤ 2 ^ 23 * 2 ^ e := Nat.mul_le_mul_left _ Nat.one_le_two_pow
    omega
  · rcases Nat.lt_or_ge e' e with hl | hg
    · refine .inr ⟨he.ne', ?_⟩
      have h5 : 2 ^ (e' + 1) ≤ 2 ^ e := Nat.pow_le_pow_right (by omega) hl
      have h6 : r' * 2 ^ e' < 2 ^ 24 * 2 ^ e' := Nat.mul_lt_mul_of_pos_right h2 (by positivity)
      rw [pow_succ] at h5
      rw [h4]; omega
    · refine .inl ⟨r' * 2 ^ (e' - e), ?_⟩
      rw [h4, mul_assoc, ← pow_add, Nat.sub_add_cancel hg]

/-- Below overflow, no binary32 magnitude is nearer to `n / d` than the rounded one, and another one exactly as near means
that the rounded one is even. -/
theorem roundMag_nearest {n d : Nat} (hd : 0 < d) (hfin : roundMag n d < infMag) (m : Nat) :
    |(n : Int) - unitsOfMag (roundMag n d) * d| ≤ |(n : Int) - unitsOfMag m * d| ∧
      (m ≠ roundMag n d → |(n : Int) - unitsOfMag (roundMag n d) * d| = |(n : Int) - unitsOfMag m * d| →
        roundMag n d % 2 = 0) := by
  have hraw : roundMag n d = rawMag n d := by
    rw [roundMag_eq] at hfin ⊢; omega
  have hpar : rawMag n d % 2 = roundNearest n (d * 2 ^ dropOf (n / d)) % 2 := by unfold rawMag; omega
  have huniq : unitsOfMag m = unitsOfMag (rawMag n d) → m = rawMag n d := fun h => unitsOfMag_strictMono.injective h
  rw [hraw, hpar]
  rw [unitsOfMag_rawMag n d] at huniq ⊢
  have hD : 0 < d * 2 ^ dropOf (n / d) := by positivity
  have near := roundNearest_nearest (n := n) hD
  have tie := fun k => roundNearest_tie (n := n) hD (k := k)
  have hdq := ge_of_dropOf (q := n / d)
  generalize dropOf (n / d) = e at *
  generalize roundNearest n (d * 2 ^ e) = r at *
  have cast (k : Nat) : ((k * 2 ^ e : Nat) : Int) * d = k * ((d * 2 ^ e : Nat) : Int) := by push_cast; ring
  rw [cast]
  rcases unitsOfMag_multiple_or_lt m e with ⟨k, hk⟩ | ⟨he, hlt⟩
  · rw [hk, cast]
    refine ⟨near k, fun hne heq => tie k ?_ heq⟩
    rintro rfl
    exact hne (huniq hk)
  · -- the magnitude lies below `2 ^ (23 + e)`, a multiple of the last place that is strictly nearer
    have hn : 2 ^ 23 * 2 ^ e * d ≤ n := by
      rw [← Nat.le_div_iff_mul_le hd, ← pow_add]; exact hdq he
    have h1 := near (2 ^ 23)
    have h2 : (unitsOfMag m * d : Int) < ((2 ^ 23 * 2 ^ e * d : Nat) : Int) := by
      exact_mod_cast Nat.mul_lt_mul_of_pos_right hlt hd
    have h3 : ((2 ^ 23 * 2 ^ e * d : Nat) : Int) ≤ n := by exact_mod_cast hn
    have h4 : ((2 ^ 23 : Nat) : Int) * ((d * 2 ^ e : Nat) : Int) = ((2 ^ 23 * 2 ^ e * d : Nat) : Int) := by
      push_cast; ring
    rw [h4, abs_of_nonneg (by omega : (0 : Int) ≤ n - ((2 ^ 23 * 2 ^ e * d : Nat) : Int))] at h1
    rw [abs_of_nonneg (by omega : (0 : Int) ≤ n - unitsOfMag m * d)]
    exact ⟨by omega, fun _ heq => by omega⟩

/-- The result is finite exactly below the overflow threshold, half a last place above the largest finite value. -/
theorem roundMag_lt_inf_iff {n d : Nat} (hd : 0 < d) :
    roundMag n d < infMag ↔ 2 * n < (2 ^ 25 - 1) * 2 ^ 253 * d := by
  have hthr : roundMag ((2 ^ 25 - 1) * 2 ^ 253 * d) (2 * d) = infMag := by
    have hq : (2 ^ 25 - 1) * 2 ^ 253 * d / (2 * d) = (2 ^ 25 - 1) * 2 ^ 252 := by
      rw [show (2 ^ 25 - 1) * 2 ^ 253 * d = (2 ^ 25 - 1) * 2 ^ 252 * (2 * d) by ring]
      exact Nat.mul_div_cancel _ (by omega)
    have hdrop : dropOf ((2 ^ 25 - 1) * 2 ^ 252) = 253 := by decide
    have hk : roundNearest ((2 ^ 25 - 1) * 2 ^ 253 * d) (2 * d * 2 ^ 253) = 2 ^ 24 := by
      have hD : 0 < 2 ^ 254 * d := by positivity
      have e : (2 ^ 25 - 1) * 2 ^ 253 * d = 2 ^ 253 * d + 2 ^ 254 * d * (2 ^ 24 - 1) := by ring
      unfold roundNearest
      rw [show 2 * d * 2 ^ 253 = 2 ^ 254 * d by ring, e, Nat.add_mul_mod_self_left, Nat.add_mul_div_left _ _ hD,
        Nat.mod_eq_of_lt (by omega : 2 ^ 253 * d < 2 ^ 254 * d),
        Nat.div_eq_of_lt (by omega : 2 ^ 253 * d < 2 ^ 254 * d), if_neg (by omega), if_neg (by omega)]
      omega
    unfold roundMag
    rw [hq, hdrop, hk]; decide
  constructor
  · intro h
    by_contra hc
    have := roundMag_mono (n := (2 ^ 25 - 1) * 2 ^ 253 * d) (d := 2 * d) (n' := n) (d' := d) (by omega) hd
      (by nlinarith)
    omega
  · intro h
    have hraw : rawMag n d < infMag := by
      have hdrop : dropOf (n / d) ≤ 253 := by
        by_contra hc
        have h1 := ge_of_dropOf (q := n / d) (by omega)
        have h2 : 2 ^ 23 * 2 ^ 254 ≤ 2 ^ (23 + dropOf (n / d)) := by
          rw [pow_add]; exact Nat.mul_le_mul_left _ (Nat.pow_le_pow_right (by omega) (by omega))
        have h3 : 2 ^ 23 * 2 ^ 254 * d ≤ n := (Nat.le_div_iff_mul_le hd).mp (h2.trans h1)
        omega
      have hk := (kept_bounds n d).1
      unfold rawMag infMag
      rcases hdrop.lt_or_eq with hlt | heq
      · omega
      · rw [heq] at hk ⊢
        obtain ⟨-, h2, h3⟩ := roundNearest_half (n := n) (d := d * 2 ^ 253) (by positivity)
        rcases hk.lt_or_eq with hl | he
        · omega
        · rw [he] at h2
          omega
    rw [roundMag_eq]; omega

end Sys2Proof.Laws
end

