-- ==== Sys2Proof/Laws/Float.lean ====
section
/-! SUPPORT. What each binary32 operator does, once: its result on the values the datapath gives it, and which results are
never NaN and never `-0.0` (spec/00_scope.md R11 to R14).  Patterns of non-negative values are ordered as natural numbers, so
a range is said as a bound on `toNat`. -/

namespace Sys2Proof.Laws

open Sys2Proof.Machine

/-! ### Patterns -/

theorem signOf_eq (a : F32) : signOf a = decide (2 ^ 31 ≤ a.toNat) := by
  unfold signOf; rw [BitVec.msb_eq_decide]

theorem magOf_lt (a : F32) : magOf a < 2 ^ 31 := Nat.mod_lt _ (by omega)

theorem toNat_eq (a : F32) : a.toNat = (if signOf a then 2 ^ 31 else 0) + magOf a := by
  rw [signOf_eq]; unfold magOf
  have := a.isLt
  simp only [decide_eq_true_eq]
  split <;> omega

theorem pack_toNat (s : Bool) {m : Nat} (h : m < 2 ^ 31) : (pack s m).toNat = (if s then 2 ^ 31 else 0) + m := by
  unfold pack
  cases s <;> simp <;> omega

@[simp] theorem pack_false_toNat {m : Nat} (h : m < 2 ^ 31) : (pack false m).toNat = m := by
  rw [pack_toNat _ h]; simp

theorem magOf_pack (s : Bool) {m : Nat} (h : m < 2 ^ 31) : magOf (pack s m) = m := by
  unfold magOf; rw [pack_toNat s h]; cases s <;> (simp; omega)

theorem signOf_pack (s : Bool) {m : Nat} (h : m < 2 ^ 31) : signOf (pack s m) = s := by
  rw [signOf_eq, pack_toNat s h]
  cases s
  · simpa using h
  · simp

theorem roundMag_lt (n d : Nat) : roundMag n d < 2 ^ 31 :=
  (roundMag_le_inf n d).trans_lt (by decide)

theorem signOf_nonneg {a : F32} (h : a.toNat ≤ infMag) : signOf a = false := by
  rw [signOf_eq]; unfold infMag at h; simp; omega

theorem magOf_nonneg {a : F32} (h : a.toNat ≤ infMag) : magOf a = a.toNat := by
  unfold magOf; unfold infMag at h; omega

theorem isNaN_nonneg {a : F32} (h : a.toNat ≤ infMag) : isNaN a = false := by
  unfold isNaN; rw [magOf_nonneg h]; simpa using h

theorem rankOf_nonneg {a : F32} (h : a.toNat ≤ infMag) : rankOf a = a.toNat := by
  unfold rankOf; rw [signOf_nonneg h, magOf_nonneg h]; rfl

theorem eq_of_sign_mag {a b : F32} (hs : signOf a = signOf b) (hm : magOf a = magOf b) : a = b := by
  apply BitVec.eq_of_toNat_eq; rw [toNat_eq a, toNat_eq b, hs, hm]

/-! ### Comparisons and ranges -/

theorem fle_nonneg {a b : F32} (ha : a.toNat ≤ infMag) (hb : b.toNat ≤ infMag) :
    fle a b = decide (a.toNat ≤ b.toNat) := by
  unfold fle; rw [isNaN_nonneg ha, isNaN_nonneg hb, rankOf_nonneg ha, rankOf_nonneg hb]; simp

theorem flt_nonneg {a b : F32} (ha : a.toNat ≤ infMag) (hb : b.toNat ≤ infMag) :
    flt a b = decide (a.toNat < b.toNat) := by
  unfold flt; rw [isNaN_nonneg ha, isNaN_nonneg hb, rankOf_nonneg ha, rankOf_nonneg hb]; simp

/-- `+0.0 <= a` without `-0.0` says that the pattern is at most that of infinity. -/
theorem nonneg_iff (a : F32) : (fle posZero a = true ∧ a ≠ negZero) ↔ a.toNat ≤ infMag := by
  constructor
  · rintro ⟨h, hz⟩
    simp only [fle, Bool.and_eq_true, Bool.not_eq_true', decide_eq_true_eq] at h
    obtain ⟨⟨-, hn⟩, ho⟩ := h
    have hn' : magOf a ≤ infMag := by simpa [isNaN] using hn
    have h0 : rankOf posZero = 0 := by decide
    rw [h0] at ho
    by_cases hs : signOf a
    · exfalso
      have hm : magOf a = 0 := by unfold rankOf at ho; rw [if_pos hs] at ho; omega
      exact hz (eq_of_sign_mag (by rw [hs]; decide) (by rw [hm]; decide))
    · rw [toNat_eq, if_neg hs]; omega
  · intro h
    refine ⟨by rw [fle_nonneg (by decide) h]; simp [posZero], ?_⟩
    rintro rfl; revert h; decide

theorem range_iff {hi : F32} (hhi : hi.toNat ≤ infMag) (a : F32) :
    (fle posZero a = true ∧ fle a hi = true ∧ a ≠ negZero) ↔ a.toNat ≤ hi.toNat := by
  constructor
  · rintro ⟨h1, h2, h3⟩
    have ha := (nonneg_iff a).mp ⟨h1, h3⟩
    rw [fle_nonneg ha hhi] at h2; simpa using h2
  · intro h
    have ha : a.toNat ≤ infMag := h.trans hhi
    obtain ⟨h1, h3⟩ := (nonneg_iff a).mpr ha
    exact ⟨h1, by rw [fle_nonneg ha hhi]; simpa using h, h3⟩

theorem range_lt_iff {hi : F32} (hhi : hi.toNat ≤ infMag) (a : F32) :
    (fle posZero a = true ∧ flt a hi = true ∧ a ≠ negZero) ↔ a.toNat < hi.toNat := by
  constructor
  · rintro ⟨h1, h2, h3⟩
    have ha := (nonneg_iff a).mp ⟨h1, h3⟩
    rw [flt_nonneg ha hhi] at h2; simpa using h2
  · intro h
    have ha : a.toNat ≤ infMag := h.le.trans hhi
    obtain ⟨h1, h3⟩ := (nonneg_iff a).mpr ha
    exact ⟨h1, by rw [flt_nonneg ha hhi]; simpa using h, h3⟩

theorem pos_iff (a : F32) : flt posZero a = true ↔ 0 < a.toNat ∧ a.toNat ≤ infMag := by
  constructor
  · intro h
    have hle : fle posZero a = true := by
      simp only [flt, fle, Bool.and_eq_true, decide_eq_true_eq] at h ⊢
      exact ⟨h.1, h.2.le⟩
    have hz : a ≠ negZero := by rintro rfl; revert h; decide
    have ha := (nonneg_iff a).mp ⟨hle, hz⟩
    rw [flt_nonneg (by decide) ha] at h
    exact ⟨by simpa [posZero] using h, ha⟩
  · rintro ⟨h0, h⟩
    rw [flt_nonneg (by decide) h]; simpa [posZero] using h0

theorem isFinite_nonneg {a : F32} (h : a.toNat ≤ infMag) : isFinite a = decide (a.toNat < infMag) := by
  unfold isFinite; rw [magOf_nonneg h]

/-! ### Which operands are what -/

theorem finite_not_nan {a : F32} (h : isFinite a = true) : isNaN a = false := by
  simp only [isFinite, decide_eq_true_eq] at h; simp only [isNaN, decide_eq_false_iff_not]; omega

theorem finite_not_inf {a : F32} (h : isFinite a = true) : isInf a = false := by
  simp only [isFinite, decide_eq_true_eq] at h; simp only [isInf, decide_eq_false_iff_not]; omega

theorem isFinite_of_lt {a : F32} (h : a.toNat < infMag) : isFinite a = true := by
  rw [isFinite_nonneg h.le]; simpa using h

theorem unitsOf_nonneg {a : F32} (h : a.toNat ≤ infMag) : unitsOf a = unitsOfMag a.toNat := by
  unfold unitsOf; rw [signOf_nonneg h, magOf_nonneg h]; rfl

@[simp] theorem signOf_fneg (a : F32) : signOf (fneg a) = !signOf a := signOf_pack _ (magOf_lt a)

@[simp] theorem magOf_fneg (a : F32) : magOf (fneg a) = magOf a := magOf_pack _ (magOf_lt a)

theorem unitsOf_fneg (a : F32) : unitsOf (fneg a) = -unitsOf a := by
  unfold unitsOf; rw [signOf_fneg, magOf_fneg]; cases signOf a <;> simp

theorem isFinite_fneg (a : F32) : isFinite (fneg a) = isFinite a := by unfold isFinite; rw [magOf_fneg]

theorem isNaN_fneg (a : F32) : isNaN (fneg a) = isNaN a := by unfold isNaN; rw [magOf_fneg]

theorem isNaN_nanOf (op : Nat) (a b : F32) : isNaN (nanOf op a b) = true := by
  simp only [isNaN, decide_eq_true_eq]
  have hm : magOf (nanOf op a b) = ((Config.nanFree op a b ||| 0x7FC00000#32) &&& 0x7FFFFFFF#32).toNat := by
    unfold magOf nanOf
    rw [BitVec.toNat_and]
    exact (Nat.and_two_pow_sub_one_eq_mod _ 31).symm
  have hle : 0x7FC00000 ≤ magOf (nanOf op a b) := by
    rw [hm]
    generalize Config.nanFree op a b = x
    have h : (x ||| 0x7FC00000#32) &&& 0x7FFFFFFF#32 = 0x7FC00000#32 ||| (x &&& 0x7FFFFFFF#32) := by
      apply BitVec.eq_of_getElem_eq
      intro i hi
      have hc : (0x7FC00000#32)[i] = ((0x7FC00000#32)[i] && (0x7FFFFFFF#32)[i]) := by
        revert i; decide
      simp only [BitVec.getElem_and, BitVec.getElem_or, Bool.and_or_distrib_right]
      rw [← hc, Bool.or_comm]
    rw [h, BitVec.toNat_or]
    exact Nat.left_le_or
  unfold infMag; omega

/-! ### The operators on finite values -/

theorem fadd_finite {a b : F32} (ha : isFinite a = true) (hb : isFinite b = true) :
    fadd a b = if unitsOf a + unitsOf b = 0 then (if signOf a && signOf b then negZero else posZero)
      else pack (decide (unitsOf a + unitsOf b < 0)) (roundMag (unitsOf a + unitsOf b).natAbs 1) := by
  unfold fadd
  simp only [finite_not_nan ha, finite_not_nan hb, finite_not_inf ha, finite_not_inf hb, Bool.or_self,
    Bool.false_eq_true, if_false]

theorem fmul_finite {a b : F32} (ha : isFinite a = true) (hb : isFinite b = true) :
    fmul a b =
      pack (signOf a != signOf b) (roundMag (unitsOfMag (magOf a) * unitsOfMag (magOf b)) (2 ^ 149)) := by
  unfold fmul
  simp only [finite_not_nan ha, finite_not_nan hb, finite_not_inf ha, finite_not_inf hb, Bool.or_self,
    Bool.false_eq_true, if_false]

theorem fdiv_finite {a b : F32} (ha : isFinite a = true) (hb : isFinite b = true) (hz : magOf b ≠ 0) :
    fdiv a b =
      pack (signOf a != signOf b) (roundMag (unitsOfMag (magOf a) * 2 ^ 149) (unitsOfMag (magOf b))) := by
  unfold fdiv
  simp only [finite_not_nan ha, finite_not_nan hb, finite_not_inf ha, finite_not_inf hb, isZero, hz, Bool.or_self,
    Bool.false_eq_true, if_false, decide_false]

theorem fdiv_inf {a b : F32} (ha : isFinite a = true) (hb : isInf b = true) :
    fdiv a b = pack (signOf a != signOf b) 0 := by
  have hn : isNaN b = false := by
    simp only [isInf, decide_eq_true_eq] at hb
    simp only [isNaN, decide_eq_false_iff_not]; omega
  unfold fdiv
  simp only [finite_not_nan ha, hn, finite_not_inf ha, hb, Bool.or_self, Bool.false_eq_true, if_false, if_true]

/-! ### The operators on non-negative finite values, as patterns -/

theorem fadd_nonneg {a b : F32} (ha : a.toNat < infMag) (hb : b.toNat < infMag) :
    (fadd a b).toNat = roundMag (unitsOfMag a.toNat + unitsOfMag b.toNat) 1 := by
  rw [fadd_finite (isFinite_of_lt ha) (isFinite_of_lt hb), unitsOf_nonneg ha.le, unitsOf_nonneg hb.le,
    signOf_nonneg ha.le]
  split_ifs with h h'
  · simp at h'
  · have : unitsOfMag a.toNat + unitsOfMag b.toNat = 0 := by omega
    rw [this, roundMag_zero]; rfl
  · rw [show decide ((unitsOfMag a.toNat : Int) + unitsOfMag b.toNat < 0) = false by
        rw [decide_eq_false_iff_not]; omega,
      pack_false_toNat (roundMag_lt _ _)]
    rfl

theorem fsub_nonneg {a b : F32} (ha : a.toNat < infMag) (hb : b.toNat ≤ a.toNat) :
    (fsub a b).toNat = roundMag (unitsOfMag a.toNat - unitsOfMag b.toNat) 1 := by
  have hb' : b.toNat < infMag := by omega
  have hu : unitsOfMag b.toNat ≤ unitsOfMag a.toNat := unitsOfMag_le_iff.mpr hb
  unfold fsub
  rw [fadd_finite (isFinite_of_lt ha) (by rw [isFinite_fneg]; exact isFinite_of_lt hb'), unitsOf_fneg,
    unitsOf_nonneg ha.le, unitsOf_nonneg hb'.le, signOf_nonneg ha.le]
  split_ifs with h h'
  · simp at h'
  · have : unitsOfMag a.toNat - unitsOfMag b.toNat = 0 := by omega
    rw [this, roundMag_zero]; rfl
  · rw [show decide ((unitsOfMag a.toNat : Int) + -unitsOfMag b.toNat < 0) = false by
        rw [decide_eq_false_iff_not]; omega,
      pack_false_toNat (roundMag_lt _ _)]
    congr 1; omega

theorem fmul_nonneg {a b : F32} (ha : a.toNat < infMag) (hb : b.toNat < infMag) :
    (fmul a b).toNat = roundMag (unitsOfMag a.toNat * unitsOfMag b.toNat) (2 ^ 149) := by
  rw [fmul_finite (isFinite_of_lt ha) (isFinite_of_lt hb), signOf_nonneg ha.le, signOf_nonneg hb.le,
    magOf_nonneg ha.le, magOf_nonneg hb.le]
  exact pack_false_toNat (roundMag_lt _ _)

theorem fdiv_nonneg {a b : F32} (ha : a.toNat < infMag) (hb0 : 0 < b.toNat) (hb : b.toNat < infMag) :
    (fdiv a b).toNat = roundMag (unitsOfMag a.toNat * 2 ^ 149) (unitsOfMag b.toNat) := by
  rw [fdiv_finite (isFinite_of_lt ha) (isFinite_of_lt hb) (by rw [magOf_nonneg hb.le]; omega),
    signOf_nonneg ha.le, signOf_nonneg hb.le, magOf_nonneg ha.le, magOf_nonneg hb.le]
  exact pack_false_toNat (roundMag_lt _ _)

theorem fdiv_nonneg_inf {a b : F32} (ha : a.toNat < infMag) (hb : b.toNat = infMag) : (fdiv a b).toNat = 0 := by
  rw [fdiv_inf (isFinite_of_lt ha) (by unfold isInf; rw [magOf_nonneg hb.le]; simpa using hb), signOf_nonneg ha.le,
    signOf_nonneg hb.le]
  rfl

/-- A quotient of a non-negative finite value by a positive one, infinity included, is non-negative. -/
theorem fdiv_nonneg_le_inf {a b : F32} (ha : a.toNat < infMag) (hb0 : 0 < b.toNat) (hb : b.toNat ≤ infMag) :
    (fdiv a b).toNat ≤ infMag := by
  rcases hb.lt_or_eq with h | h
  · rw [fdiv_nonneg ha hb0 h]; exact roundMag_le_inf _ _
  · rw [fdiv_nonneg_inf ha h]; exact Nat.zero_le _

theorem toF32_toNat (n : Nat) : (toF32 n).toNat = roundMag (n * 2 ^ 149) 1 :=
  pack_false_toNat (roundMag_lt _ _)

/-! ### Bounds -/

theorem one_toNat : one.toNat = 0x3F800000 := rfl

theorem units_one : unitsOfMag one.toNat = 2 ^ 149 := unitsOfMag_one_val

/-- A product with a factor in `[0, 1]` is at most the other factor. -/
theorem fmul_le_left {a b : F32} (ha : a.toNat < infMag) (hb : b.toNat ≤ one.toNat) :
    (fmul a b).toNat ≤ a.toNat := by
  have hb' : b.toNat < infMag := hb.trans_lt (by decide)
  rw [fmul_nonneg ha hb']
  refine roundMag_le (by positivity) ha.le (Nat.mul_le_mul_left _ ?_)
  rw [← units_one]; exact unitsOfMag_le_iff.mpr hb

/-- The complement `1 - b` of a value in `[0, 1]` is in `[0, 1]`. -/
theorem fsub_one_le {b : F32} (hb : b.toNat ≤ one.toNat) : (fsub one b).toNat ≤ one.toNat := by
  rw [fsub_nonneg (by decide) hb]
  exact roundMag_le (by omega) (by decide) (by rw [Nat.mul_one]; exact Nat.sub_le _ _)

theorem clamp01_le {x : F32} (hx : x.toNat ≤ infMag) : (clamp01 x).toNat ≤ one.toNat := by
  unfold clamp01 clampF
  rw [flt_nonneg hx (by decide), flt_nonneg (by decide) hx]
  split_ifs with h1 h2
  · decide
  · exact le_rfl
  · simpa using h2

/-- Multiplying by 1 changes no finite non-negative value. -/
theorem fmul_one_right {a : F32} (ha : a.toNat < infMag) : fmul a one = a := by
  apply BitVec.eq_of_toNat_eq
  rw [fmul_nonneg ha (by decide), units_one, roundMag_exact (by positivity) ha.le]

/-! ### NaN and `-0.0` -/

theorem pack_not_nan (s : Bool) (n d : Nat) : isNaN (pack s (roundMag n d)) = false := by
  unfold isNaN; rw [magOf_pack s (roundMag_lt n d)]; simpa using roundMag_le_inf n d

theorem fadd_not_nan {a b : F32} (ha : isNaN a = false) (hb : isFinite b = true) : isNaN (fadd a b) = false := by
  unfold fadd
  rw [ha, finite_not_nan hb, finite_not_inf hb]
  simp only [Bool.or_self, Bool.false_eq_true, if_false, Bool.false_and]
  split_ifs <;> first | exact ha | decide | exact pack_not_nan _ _ _

theorem fsub_not_nan {a b : F32} (ha : isNaN a = false) (hb : isFinite b = true) : isNaN (fsub a b) = false :=
  fadd_not_nan ha (by rw [isFinite_fneg]; exact hb)

theorem fmul_not_nan {a b : F32} (ha : isFinite a = true) (hb : isFinite b = true) : isNaN (fmul a b) = false := by
  rw [fmul_finite ha hb]; exact pack_not_nan _ _ _

/-- Under round to nearest a sum is `-0.0` only when both addends are `-0.0`. -/
theorem fadd_ne_negZero {a b : F32} (h : a ≠ negZero ∨ b ≠ negZero) : fadd a b ≠ negZero := by
  intro hc
  have hnan (op : Nat) (x y : F32) : nanOf op x y ≠ negZero := by
    intro he; have := isNaN_nanOf op x y; rw [he] at this; revert this; decide
  have hinf {x : F32} (hx : isInf x = true) : x ≠ negZero := by rintro rfl; revert hx; decide
  unfold fadd at hc
  split_ifs at hc with h1 h2 h3 h4 h5 h6
  · exact hnan _ _ _ hc
  · exact hnan _ _ _ hc
  · exact hinf h2 hc
  · exact hinf h4 hc
  · -- both zero with both signs set: both are `-0.0`
    rw [Bool.and_eq_true] at h6
    have hu : unitsOfMag (magOf a) = 0 ∧ unitsOfMag (magOf b) = 0 := by
      unfold unitsOf at h5; rw [if_pos h6.1, if_pos h6.2] at h5; omega
    have hz {x : F32} (hs : signOf x = true) (hx : unitsOfMag (magOf x) = 0) : x = negZero := by
      have : magOf x = 0 := by
        by_contra hne; have := unitsOfMag_pos (Nat.pos_of_ne_zero hne); omega
      exact eq_of_sign_mag (by rw [hs]; decide) (by rw [this]; decide)
    rcases h with h | h
    · exact h (hz h6.1 hu.1)
    · exact h (hz h6.2 hu.2)
  · revert hc; decide
  · -- a non-zero sum is at least one unit, which is representable
    have hpos : 1 ≤ roundMag (unitsOf a + unitsOf b).natAbs 1 :=
      le_roundMag (by omega) (by decide) (by rw [unitsOfMag_small (by omega)]; omega)
    have := congrArg magOf hc
    rw [magOf_pack _ (roundMag_lt _ _)] at this
    have h0 : magOf negZero = 0 := by decide
    omega

end Sys2Proof.Laws
end

