-- ==== Sys2Proof/Laws/Datapath.lean ====
section
/-! SUPPORT. Ranges of the datapath's quantities, as bounds on bit patterns: the sample rate and elapsed time, guarded ratios,
clamps (spec/00_scope.md R14, R16; spec/41_envelope.md R120, R121; spec/40_oscillator.md R100). -/

namespace Sys2Proof.Laws

open Sys2Proof.Machine

theorem unitsOf_pack (s : Bool) {m : Nat} (h : m < 2 ^ 31) :
    unitsOf (pack s m) = if s then -(unitsOfMag m : Int) else unitsOfMag m := by
  unfold unitsOf; rw [signOf_pack s h, magOf_pack s h]

/-- `SRf` lies between 1.0 and `2^24`. -/
theorem srf_range {c : Config} (h : ConfigWf c) : one.toNat ≤ (srf c).toNat ∧ (srf c).toNat ≤ 0x4B800000 := by
  obtain ⟨-, ⟨h1, h2⟩, -⟩ := h
  unfold srf; rw [toF32_toNat]
  have e : unitsOfMag 0x4B800000 = 2 ^ 173 := by decide
  refine ⟨le_roundMag (by omega) (by decide) ?_, roundMag_le (by omega) (by decide) ?_⟩
  · rw [units_one]; omega
  · rw [e]; omega

theorem srf_lt_inf {c : Config} (h : ConfigWf c) : (srf c).toNat < infMag :=
  (srf_range h).2.trans_lt (by decide)

theorem srf_pos {c : Config} (h : ConfigWf c) : 0 < (srf c).toNat :=
  (by decide : 0 < one.toNat).trans_le (srf_range h).1

/-- A count in binary32 is at most `2^32`. -/
theorem toF32_count_le (n : Word32) : (toF32 n.toNat).toNat ≤ 0x4F800000 := by
  have e : unitsOfMag 0x4F800000 = 2 ^ 181 := by decide
  have := n.isLt
  rw [toF32_toNat]
  exact roundMag_le (by omega) (by decide) (by rw [e]; omega)

/-- Elapsed time is non-negative, finite, and at most `2^32` seconds. -/
theorem tOf_le {c : Config} (h : ConfigWf c) (n : Word32) : (tOf c n).toNat ≤ 0x4F800000 := by
  have h1 := toF32_count_le n
  have hs : 2 ^ 149 ≤ unitsOfMag (srf c).toNat := by
    rw [← units_one]; exact unitsOfMag_le_iff.mpr (srf_range h).1
  unfold tOf
  rw [fdiv_nonneg (h1.trans_lt (by decide)) (srf_pos h) (srf_lt_inf h)]
  refine roundMag_le (by positivity) (by decide) ?_
  calc unitsOfMag (toF32 n.toNat).toNat * 2 ^ 149
      ≤ unitsOfMag 0x4F800000 * 2 ^ 149 := Nat.mul_le_mul_right _ (unitsOfMag_le_iff.mpr h1)
    _ ≤ unitsOfMag 0x4F800000 * unitsOfMag (srf c).toNat := Nat.mul_le_mul_left _ hs

theorem tOf_lt_inf {c : Config} (h : ConfigWf c) (n : Word32) : (tOf c n).toNat < infMag :=
  (tOf_le h n).trans_lt (by decide)

theorem tOf_zero {c : Config} (h : ConfigWf c) : tOf c 0#32 = posZero := by
  apply BitVec.eq_of_toNat_eq
  have h0 : toF32 (0#32).toNat = posZero := by decide
  unfold tOf
  rw [h0, fdiv_nonneg (by decide) (srf_pos h) (srf_lt_inf h)]
  simp [posZero]

/-- A positive duration, or `+0.0`, has a pattern up to that of `+inf`. -/
theorem duration_le {d : F32} (h : d = posZero ∨ flt posZero d = true) : d.toNat ≤ infMag := by
  rcases h with rfl | h
  · decide
  · exact ((pos_iff d).mp h).2

/-- The guard of a duration is exactly its being `+0.0`. -/
theorem duration_guard {d : F32} (h : d.toNat ≤ infMag) : fle d posZero = decide (d = posZero) := by
  rw [fle_nonneg h (by decide)]
  have h0 : posZero.toNat = 0 := rfl
  rw [h0]
  by_cases hd : d.toNat = 0
  · have : d = posZero := BitVec.eq_of_toNat_eq hd
    simp [this, h0]
  · have : d ≠ posZero := by rintro rfl; exact hd rfl
    simp [this]; omega

/-- A guarded ratio of a non-negative value is in `[0, 1]`. -/
theorem ratio_le_one {x d : F32} (hx : x.toNat < infMag) (hd : d.toNat ≤ infMag) :
    (ratio x d).toNat ≤ one.toNat := by
  unfold ratio
  rw [duration_guard hd]
  split_ifs with h
  · exact le_rfl
  · have hp : 0 < d.toNat := by
      rcases Nat.eq_zero_or_pos d.toNat with h0 | h0
      · exact absurd (decide_eq_true (BitVec.eq_of_toNat_eq h0 : d = posZero)) h
      · exact h0
    exact clamp01_le (fdiv_nonneg_le_inf hx hp hd)

/-- Without a duration the ratio is 1 (R121). -/
theorem ratio_zero (x : F32) : ratio x posZero = one := by
  unfold ratio; rw [if_pos (by decide)]

/-- The ratio of nothing elapsed to a duration is 0. -/
theorem ratio_at_zero {d : F32} (h0 : d ≠ posZero) (hd : d.toNat ≤ infMag) : ratio posZero d = posZero := by
  have hp : 0 < d.toNat := by
    rcases Nat.eq_zero_or_pos d.toNat with h | h
    · exact absurd (BitVec.eq_of_toNat_eq h : d = posZero) h0
    · exact h
  unfold ratio
  rw [duration_guard hd, if_neg (by simpa using h0)]
  have hq : fdiv posZero d = posZero := by
    apply BitVec.eq_of_toNat_eq
    rcases hd.lt_or_eq with h | h
    · rw [fdiv_nonneg (by decide) hp h]; simp [posZero]
    · rw [fdiv_nonneg_inf (by decide) h]; rfl
  rw [hq]; decide

/-- A finished duration has ratio exactly 1 (R150, R129). -/
theorem ratio_finished {x d : F32} (hx : x.toNat < infMag) (hd : d.toNat ≤ infMag) (h : fle d x = true) :
    ratio x d = one := by
  rw [fle_nonneg hd hx.le] at h
  have hdx : d.toNat ≤ x.toNat := by simpa using h
  have hdlt : d.toNat < infMag := hdx.trans_lt hx
  by_cases h0 : d = posZero
  · rw [h0]; exact ratio_zero x
  · have hp : 0 < d.toNat := by
      rcases Nat.eq_zero_or_pos d.toNat with h | h
      · exact absurd (BitVec.eq_of_toNat_eq h : d = posZero) h0
      · exact h
    unfold ratio
    rw [duration_guard hd, if_neg (by simpa using h0)]
    have hge : one.toNat ≤ (fdiv x d).toNat := by
      rw [fdiv_nonneg hx hp hdlt]
      refine le_roundMag (unitsOfMag_pos hp) (by decide) ?_
      rw [units_one, Nat.mul_comm]
      exact Nat.mul_le_mul_right _ (unitsOfMag_le_iff.mpr hdx)
    have hle := fdiv_nonneg_le_inf hx hp hd
    unfold clamp01 clampF
    rw [flt_nonneg hle (by decide), flt_nonneg (by decide) hle]
    have h0' : posZero.toNat = 0 := rfl
    rw [if_neg (by rw [h0']; simp)]
    split_ifs with h1
    · rfl
    · apply BitVec.eq_of_toNat_eq
      have : ¬ one.toNat < (fdiv x d).toNat := by simpa using h1
      omega

/-- Clamping a value that is neither NaN nor `-0.0` to `[+0.0, hi]` gives a pattern up to that of `hi`. -/
theorem clampF_le {x hi : F32} (hhi : hi.toNat ≤ infMag) (hn : isNaN x = false) (hz : x ≠ negZero) :
    (clampF x posZero hi).toNat ≤ hi.toNat := by
  unfold clampF
  split_ifs with h1 h2
  · exact Nat.zero_le _
  · exact le_rfl
  · have hle : fle posZero x = true := by
      have p0 : isNaN posZero = false := by decide
      simp only [flt, hn, p0, Bool.not_false, Bool.true_and, decide_eq_true_eq] at h1
      simp only [fle, hn, p0, Bool.not_false, Bool.true_and, decide_eq_true_eq]
      omega
    have hx := (nonneg_iff x).mp ⟨hle, hz⟩
    rw [flt_nonneg hhi hx] at h2
    simpa using h2

/-! ### Halving, doubling and factors of at most one -/

/-- Taking one from the exponent field halves a value that is not too small. -/
theorem unitsOfMag_half {m : Nat} (h : 2 ^ 24 ≤ m) : 2 * unitsOfMag (m - 2 ^ 23) = unitsOfMag m := by
  obtain h' | ⟨e, r, h1, h2, h3, h4⟩ := mag_cases m
  · omega
  · obtain ⟨k, rfl⟩ := Nat.exists_eq_add_of_le (by omega : 1 ≤ e)
    rw [h4, show m - 2 ^ 23 = k * 2 ^ 23 + r by omega, unitsOfMag_scaled h1 h2.le, pow_add]; ring

/-- `NYQ` is `SRf` with one less in the exponent field (R16). -/
theorem nyq_toNat {c : Config} (h : ConfigWf c) : (nyq c).toNat = (srf c).toNat - 2 ^ 23 := by
  have h1 := srf_range h
  have h0 := one_toNat
  have e : unitsOfMag two.toNat = 2 * 2 ^ 149 := by decide
  unfold nyq
  rw [fdiv_nonneg (srf_lt_inf h) (by decide) (by decide), e, ← unitsOfMag_half (m := (srf c).toNat) (by omega),
    show 2 * unitsOfMag ((srf c).toNat - 2 ^ 23) * 2 ^ 149 = unitsOfMag ((srf c).toNat - 2 ^ 23) * (2 * 2 ^ 149) by ring]
  exact roundMag_exact (by positivity) (by have := srf_lt_inf h; omega)

theorem nyq_lt_inf {c : Config} (h : ConfigWf c) : (nyq c).toNat < infMag := by
  rw [nyq_toNat h]; have := srf_lt_inf h; omega

/-- A factor of at most one makes no value larger. -/
theorem fmul_mag_le {a b : F32} (ha : magOf a ≤ one.toNat) (hb : isFinite b = true) :
    magOf (fmul a b) ≤ magOf b ∧ isFinite (fmul a b) = true := by
  have ha' : isFinite a = true := decide_eq_true (ha.trans_lt (by decide))
  have hb' : magOf b < infMag := of_decide_eq_true hb
  rw [fmul_finite ha' hb]
  have := roundMag_le (n := unitsOfMag (magOf a) * unitsOfMag (magOf b)) (d := 2 ^ 149) (by positivity) hb'.le
    (by rw [Nat.mul_comm]; exact Nat.mul_le_mul_left _ (by rw [← units_one]; exact unitsOfMag_le_iff.mpr ha))
  unfold isFinite
  rw [magOf_pack _ (roundMag_lt _ _)]
  exact ⟨this, decide_eq_true (this.trans_lt hb')⟩

/-- A value from `-1.0` to `1.0` has magnitude bits up to those of `1.0`. -/
theorem magOf_unit {x : F32} (h : fle negOne x = true ∧ fle x one = true) : magOf x ≤ one.toNat := by
  simp only [fle, Bool.and_eq_true, decide_eq_true_eq] at h
  obtain ⟨⟨_, h1⟩, _, h2⟩ := h
  rw [show rankOf negOne = -(0x3F800000 : Int) by decide] at h1
  rw [show rankOf one = (0x3F800000 : Int) by decide] at h2
  rw [one_toNat]
  unfold rankOf at h1 h2
  split_ifs at h1 h2 <;> omega

theorem fle_trans {a b c : F32} (h : fle a b = true) (h' : fle b c = true) : fle a c = true := by
  simp only [fle, Bool.and_eq_true, decide_eq_true_eq] at *
  exact ⟨⟨h.1.1, h'.1.2⟩, h.2.trans h'.2⟩

end Sys2Proof.Laws
end

