-- ==== Sys2Proof/Laws/State.lean ====
section
/-! SUPPORT. One lemma per field of State per update, so that no proof unfolds a record update. -/

namespace Sys2Proof.Laws

open Sys2Proof.Machine

@[simp] theorem updateVoice_cfg (i : Nat) (f : Voice → Voice) (s : State) :
    (updateVoice i f s).cfg = s.cfg := rfl
@[simp] theorem updateVoice_voices (i : Nat) (f : Voice → Voice) (s : State) :
    (updateVoice i f s).voices = s.voices.modify i f := rfl
@[simp] theorem updateVoice_patch (i : Nat) (f : Voice → Voice) (s : State) :
    (updateVoice i f s).patch = s.patch := rfl
@[simp] theorem updateVoice_status (i : Nat) (f : Voice → Voice) (s : State) :
    (updateVoice i f s).status = s.status := rfl
@[simp] theorem updateVoice_resp (i : Nat) (f : Voice → Voice) (s : State) :
    (updateVoice i f s).resp = s.resp := rfl
@[simp] theorem updateVoice_input (i : Nat) (f : Voice → Voice) (s : State) :
    (updateVoice i f s).input = s.input := rfl

@[simp] theorem emit_cfg (w : Word32) (s : State) :
    (emit w s).cfg = s.cfg := rfl
@[simp] theorem emit_voices (w : Word32) (s : State) :
    (emit w s).voices = s.voices := rfl
@[simp] theorem emit_patch (w : Word32) (s : State) :
    (emit w s).patch = s.patch := rfl
@[simp] theorem emit_status (w : Word32) (s : State) :
    (emit w s).status = s.status := rfl
@[simp] theorem emit_resp (w : Word32) (s : State) :
    (emit w s).resp = s.resp ++ [w] := rfl
@[simp] theorem emit_input (w : Word32) (s : State) :
    (emit w s).input = s.input := rfl

@[simp] theorem raiseEvent_cfg (e : ErrorEvent) (s : State) :
    (raiseEvent e s).cfg = s.cfg := rfl
@[simp] theorem raiseEvent_voices (e : ErrorEvent) (s : State) :
    (raiseEvent e s).voices = s.voices := rfl
@[simp] theorem raiseEvent_patch (e : ErrorEvent) (s : State) :
    (raiseEvent e s).patch = s.patch := rfl
@[simp] theorem raiseEvent_status (e : ErrorEvent) (s : State) :
    (raiseEvent e s).status = s.status ||| e.mask := rfl
@[simp] theorem raiseEvent_resp (e : ErrorEvent) (s : State) :
    (raiseEvent e s).resp = s.resp := rfl
@[simp] theorem raiseEvent_input (e : ErrorEvent) (s : State) :
    (raiseEvent e s).input = s.input := rfl

@[simp] theorem assertReset_cfg (s : State) :
    (assertReset s).cfg = s.cfg := rfl
@[simp] theorem assertReset_voices (s : State) :
    (assertReset s).voices = List.replicate s.cfg.nvoices Voice.reset := rfl
@[simp] theorem assertReset_patch (s : State) :
    (assertReset s).patch = Patch.reset := rfl
@[simp] theorem assertReset_status (s : State) :
    (assertReset s).status = 0#32 := rfl
@[simp] theorem assertReset_resp (s : State) :
    (assertReset s).resp = [] := rfl
@[simp] theorem assertReset_input (s : State) :
    (assertReset s).input = s.input := rfl

@[simp] theorem takeResponse_cfg (s : State) :
    (takeResponse s).cfg = s.cfg := rfl
@[simp] theorem takeResponse_voices (s : State) :
    (takeResponse s).voices = s.voices := rfl
@[simp] theorem takeResponse_patch (s : State) :
    (takeResponse s).patch = s.patch := rfl
@[simp] theorem takeResponse_status (s : State) :
    (takeResponse s).status = s.status := rfl
@[simp] theorem takeResponse_resp (s : State) :
    (takeResponse s).resp = s.resp.tail := rfl
@[simp] theorem takeResponse_input (s : State) :
    (takeResponse s).input = s.input := rfl

@[simp] theorem withFetchWord_cfg (s : State) (nbits w : Nat) :
    (s.withFetchWord nbits w).cfg = s.cfg := rfl
@[simp] theorem withFetchWord_voices (s : State) (nbits w : Nat) :
    (s.withFetchWord nbits w).voices = s.voices := rfl
@[simp] theorem withFetchWord_patch (s : State) (nbits w : Nat) :
    (s.withFetchWord nbits w).patch = s.patch := rfl
@[simp] theorem withFetchWord_status (s : State) (nbits w : Nat) :
    (s.withFetchWord nbits w).status = s.status := rfl
@[simp] theorem withFetchWord_resp (s : State) (nbits w : Nat) :
    (s.withFetchWord nbits w).resp = s.resp := rfl
@[simp] theorem withFetchWord_input (s : State) (nbits w : Nat) :
    (s.withFetchWord nbits w).input = .command (BitVec.ofNat 64 (w % 2 ^ nbits)) :: s.input := rfl

/-! The reset state, field by field (R400). -/

@[simp] theorem resetOf_cfg (c : Config) : (State.resetOf c).cfg = c := rfl
@[simp] theorem resetOf_voices (c : Config) : (State.resetOf c).voices = List.replicate c.nvoices Voice.reset := rfl
@[simp] theorem resetOf_patch (c : Config) : (State.resetOf c).patch = Patch.reset := rfl
@[simp] theorem resetOf_status (c : Config) : (State.resetOf c).status = 0#32 := rfl
@[simp] theorem resetOf_resp (c : Config) : (State.resetOf c).resp = [] := rfl
@[simp] theorem resetOf_input (c : Config) : (State.resetOf c).input = [] := rfl

end Sys2Proof.Laws
end

