-- ==== Sys2Proof/Laws/Ops.lean ====
section
/-! SUPPORT. What each shared operation can do, said once. -/

namespace Sys2Proof.Laws

open Sys2Proof.Machine

@[simp] theorem mask_ill : ErrorEvent.ill.mask = 0x00000001#32 := rfl
@[simp] theorem mask_cv : ErrorEvent.cv.mask = 0x00000002#32 := rfl

/-- A setter in one record: the register written unless discarded, CV where raised, all else kept (R220 to R226). -/
theorem setPatch_eq (write : F32 → Patch → Patch) (r : Option F32 × Bool) (s : State) :
    setPatch write r s =
      { s with
        patch := (match r.1 with | some y => write y s.patch | none => s.patch)
        status := if r.2 then s.status ||| 0x00000002#32 else s.status } := by
  obtain ⟨o, b⟩ := r
  cases o <;> cases b <;> rfl

/-- READ_VOICE inside the pool appends its word (R228). -/
theorem readVoice_inside {idx : Nat} {s : State} (h : idx < s.cfg.nvoices) (word : State → Word32) :
    readVoice idx word s = emit (word s) s := by
  unfold readVoice; rw [if_neg (by omega)]

/-- READ_VOICE outside the pool raises CV (R228). -/
theorem readVoice_outside {idx : Nat} {s : State} (h : s.cfg.nvoices ≤ idx) (word : State → Word32) :
    readVoice idx word s = raiseEvent .cv s := by
  unfold readVoice; rw [if_pos h]

/-- READ_VOICE answers one of two states. -/
theorem readVoice_cases (idx : Nat) (word : State → Word32) (s : State) :
    readVoice idx word s = emit (word s) s ∨ readVoice idx word s = raiseEvent .cv s := by
  rcases Nat.lt_or_ge idx s.cfg.nvoices with h | h
  · exact .inl (readVoice_inside h word)
  · exact .inr (readVoice_outside h word)

theorem voiceAt_of_get {s : State} {k : Nat} {v : Voice} (h : s.voices[k]? = some v) : voiceAt s k = v := by
  unfold voiceAt; rw [List.getD_eq_getElem?_getD, h]; rfl

theorem waveOf_of_get {c : Config} {k : Nat} {w : Waveform} (h : c.wave[k]? = some w) : waveOf c k = w := by
  unfold waveOf; rw [List.getD_eq_getElem?_getD, h]; rfl

/-- The sample loop keeps the pool's size. -/
theorem sampleFrom_length (c : Config) (p : Patch) (vs : List Voice) (i : Nat) (acc : F32) :
    (sampleFrom c p i acc vs).2.length = vs.length := by
  induction vs generalizing i acc with
  | nil => rfl
  | cons v vs ih => simp [sampleFrom, ih]

/-- The sample loop steps each voice with its own waveform. -/
theorem sampleFrom_get (c : Config) (p : Patch) (vs : List Voice) (i : Nat) (acc : F32) (j : Nat) :
    (sampleFrom c p i acc vs).2[j]? = vs[j]?.map fun v => (voiceStep c p (waveOf c (i + j)) v).2 := by
  induction vs generalizing i acc j with
  | nil => simp [sampleFrom]
  | cons v vs ih =>
    cases j with
    | zero => simp [sampleFrom]
    | succ j => simp [sampleFrom, ih, show i + 1 + j = i + (j + 1) by omega]

/-- The sample loop adds the voices' samples from left to right. -/
theorem sampleFrom_mix (c : Config) (p : Patch) (vs : List Voice) (i : Nat) (acc : F32) :
    (sampleFrom c p i acc vs).1 =
      (vs.mapIdx fun j v => (voiceStep c p (waveOf c (i + j)) v).1).foldl fadd acc := by
  induction vs generalizing i acc with
  | nil => rfl
  | cons v vs ih =>
    simp only [sampleFrom, ih, List.mapIdx_cons, List.foldl_cons, Nat.add_zero]
    congr 2
    funext j v
    rw [show i + 1 + j = i + (j + 1) by omega]

/-- The stealing loop answers `best` or an index of the voices it still looks at. -/
theorem stealFrom_range (x : F32) (vs : List Voice) (i best : Nat) (bd : F32) :
    stealFrom x i best bd vs = best ∨ (i ≤ stealFrom x i best bd vs ∧ stealFrom x i best bd vs < i + vs.length) := by
  induction vs generalizing i best bd with
  | nil => exact .inl rfl
  | cons v vs ih =>
    simp only [stealFrom, List.length_cons]
    split
    · rcases ih (i + 1) i (fabs (fsub v.endFreq x)) with h | h
      · right; omega
      · right; omega
    · rcases ih (i + 1) best bd with h | h
      · exact .inl h
      · right; omega

/-! The constants of R16 as written patterns: rewrite with these rather than let the kernel unfold an operator. -/

theorem rt_bits : rt = 0x3C23D70A#32 := rfl
theorem one_bits : one = 0x3F800000#32 := rfl
theorem posZero_bits : posZero = 0x00000000#32 := rfl
theorem twoPi_bits : twoPi = 0x40C90FDB#32 := rfl

/-- The reserved bits of `STATUS` under an error event (R26). -/
theorem statusReserved_or (a b : Word32) : statusReserved (a ||| b) = statusReserved a ||| statusReserved b := by
  unfold statusReserved; ext i hi; simp

/-- `sat_inc` holds at the top and adds one below it (R15). -/
theorem satInc_toNat (n : Word32) : (satInc n).toNat = min (n.toNat + 1) (2 ^ 32 - 1) := by
  have := n.isLt
  unfold satInc
  split_ifs with h
  · rw [BitVec.toNat_add, BitVec.toNat_ofNat]; omega
  · omega

end Sys2Proof.Laws
end

