-- ==== Sys2Proof/Laws/Word.lean ====
section
/-! SUPPORT. The fields of a command word as numbers, and the word that four fields make (spec/30_encoding.md R71). -/

namespace Sys2Proof.Laws

theorem opcOf_toNat (w : CmdWord) : (opcOf w).toNat = w.toNat % 256 := by
  simp [opcOf, BitVec.extractLsb'_toNat]

theorem selOf_toNat (w : CmdWord) : (selOf w).toNat = w.toNat / 256 % 256 := by
  simp [selOf, BitVec.extractLsb'_toNat, Nat.shiftRight_eq_div_pow]

theorem rsvOf_toNat (w : CmdWord) : (rsvOf w).toNat = w.toNat / 65536 % 65536 := by
  simp [rsvOf, BitVec.extractLsb'_toNat, Nat.shiftRight_eq_div_pow]

theorem opdOf_toNat (w : CmdWord) : (opdOf w).toNat = w.toNat / 2 ^ 32 := by
  have := w.isLt
  simp [opdOf, BitVec.extractLsb'_toNat, Nat.shiftRight_eq_div_pow]; omega

/-- The number a command word is. -/
theorem cmdWord_toNat (opc sel : BitVec 8) (opd : BitVec 32) :
    (cmdWord opc sel opd).toNat = opd.toNat * 2 ^ 32 + sel.toNat * 2 ^ 8 + opc.toNat := by
  have h1 := opc.isLt
  have h2 := sel.isLt
  unfold cmdWord
  rw [BitVec.toNat_append, BitVec.toNat_append, BitVec.toNat_append,
    ← Nat.shiftLeft_add_eq_or_of_lt h1, ← Nat.shiftLeft_add_eq_or_of_lt h2,
    ← Nat.shiftLeft_add_eq_or_of_lt (by simp)]
  simp only [Nat.shiftLeft_eq, BitVec.toNat_ofNat, Nat.zero_mod]
  omega

@[simp] theorem opcOf_cmdWord (opc sel : BitVec 8) (opd : BitVec 32) : opcOf (cmdWord opc sel opd) = opc := by
  have := opc.isLt
  have := sel.isLt
  apply BitVec.eq_of_toNat_eq
  rw [opcOf_toNat, cmdWord_toNat]; omega

@[simp] theorem selOf_cmdWord (opc sel : BitVec 8) (opd : BitVec 32) : selOf (cmdWord opc sel opd) = sel := by
  have := opc.isLt
  have := sel.isLt
  apply BitVec.eq_of_toNat_eq
  rw [selOf_toNat, cmdWord_toNat]; omega

@[simp] theorem rsvOf_cmdWord (opc sel : BitVec 8) (opd : BitVec 32) : rsvOf (cmdWord opc sel opd) = 0#16 := by
  have := opc.isLt
  have := sel.isLt
  apply BitVec.eq_of_toNat_eq
  rw [rsvOf_toNat, cmdWord_toNat]; simp; omega

@[simp] theorem opdOf_cmdWord (opc sel : BitVec 8) (opd : BitVec 32) : opdOf (cmdWord opc sel opd) = opd := by
  have := opc.isLt
  have := sel.isLt
  apply BitVec.eq_of_toNat_eq
  rw [opdOf_toNat, cmdWord_toNat]; omega

/-- A word with `RSV = 0` is the word of its other three fields. -/
theorem cmdWord_of_fields {w : CmdWord} (h : rsvOf w = 0#16) : cmdWord (opcOf w) (selOf w) (opdOf w) = w := by
  have h0 := congrArg BitVec.toNat h
  rw [rsvOf_toNat] at h0
  apply BitVec.eq_of_toNat_eq
  rw [cmdWord_toNat, opcOf_toNat, selOf_toNat, opdOf_toNat]
  simp at h0
  omega

end Sys2Proof.Laws
end

