-- ==== Sys2Proof/Laws/PerInstr.lean ====
section
/-! SUPPORT. Statements about every instruction as syntax, one lemma per constructor. -/

namespace Sys2Proof.Laws

/-- R71: the reserved field of a command's word is 0. -/
def ReservedZero.Statement (i : Instr) : Prop :=
  rsvOf (encode i) = 0#16

theorem ReservedZero.play (x : F32) : ReservedZero.Statement (.play x) := rsvOf_cmdWord _ _ _
theorem ReservedZero.stop (x : F32) : ReservedZero.Statement (.stop x) := rsvOf_cmdWord _ _ _
theorem ReservedZero.sample : ReservedZero.Statement .sample := rsvOf_cmdWord _ _ _
theorem ReservedZero.setAttack (x : F32) : ReservedZero.Statement (.setAttack x) := rsvOf_cmdWord _ _ _
theorem ReservedZero.setDecay (x : F32) : ReservedZero.Statement (.setDecay x) := rsvOf_cmdWord _ _ _
theorem ReservedZero.setSustain (x : F32) : ReservedZero.Statement (.setSustain x) := rsvOf_cmdWord _ _ _
theorem ReservedZero.setRelease (x : F32) : ReservedZero.Statement (.setRelease x) := rsvOf_cmdWord _ _ _
theorem ReservedZero.setGlide (x : F32) : ReservedZero.Statement (.setGlide x) := rsvOf_cmdWord _ _ _
theorem ReservedZero.readRegStatus : ReservedZero.Statement .readRegStatus := rsvOf_cmdWord _ _ _
theorem ReservedZero.readRegAttack : ReservedZero.Statement .readRegAttack := rsvOf_cmdWord _ _ _
theorem ReservedZero.readRegDecay : ReservedZero.Statement .readRegDecay := rsvOf_cmdWord _ _ _
theorem ReservedZero.readRegSustain : ReservedZero.Statement .readRegSustain := rsvOf_cmdWord _ _ _
theorem ReservedZero.readRegRelease : ReservedZero.Statement .readRegRelease := rsvOf_cmdWord _ _ _
theorem ReservedZero.readRegGlide : ReservedZero.Statement .readRegGlide := rsvOf_cmdWord _ _ _
theorem ReservedZero.readRegGain : ReservedZero.Statement .readRegGain := rsvOf_cmdWord _ _ _
theorem ReservedZero.readRegNvoices : ReservedZero.Statement .readRegNvoices := rsvOf_cmdWord _ _ _
theorem ReservedZero.readRegSr : ReservedZero.Statement .readRegSr := rsvOf_cmdWord _ _ _
theorem ReservedZero.readVoiceActive (idx : Nat) : ReservedZero.Statement (.readVoiceActive idx) := rsvOf_cmdWord _ _ _
theorem ReservedZero.readVoicePhase (idx : Nat) : ReservedZero.Statement (.readVoicePhase idx) := rsvOf_cmdWord _ _ _
theorem ReservedZero.readVoiceOscFreq (idx : Nat) : ReservedZero.Statement (.readVoiceOscFreq idx) := rsvOf_cmdWord _ _ _
theorem ReservedZero.readVoiceStart (idx : Nat) : ReservedZero.Statement (.readVoiceStart idx) := rsvOf_cmdWord _ _ _
theorem ReservedZero.readVoiceEnd (idx : Nat) : ReservedZero.Statement (.readVoiceEnd idx) := rsvOf_cmdWord _ _ _
theorem ReservedZero.readVoiceN (idx : Nat) : ReservedZero.Statement (.readVoiceN idx) := rsvOf_cmdWord _ _ _
theorem ReservedZero.readVoiceRel (idx : Nat) : ReservedZero.Statement (.readVoiceRel idx) := rsvOf_cmdWord _ _ _
theorem ReservedZero.readVoiceNRel (idx : Nat) : ReservedZero.Statement (.readVoiceNRel idx) := rsvOf_cmdWord _ _ _
theorem ReservedZero.readVoiceRelAmp (idx : Nat) : ReservedZero.Statement (.readVoiceRelAmp idx) := rsvOf_cmdWord _ _ _
theorem ReservedZero.readVoiceRtgAmp (idx : Nat) : ReservedZero.Statement (.readVoiceRtgAmp idx) := rsvOf_cmdWord _ _ _
theorem ReservedZero.readVoiceWave (idx : Nat) : ReservedZero.Statement (.readVoiceWave idx) := rsvOf_cmdWord _ _ _
theorem ReservedZero.readVoiceState (idx : Nat) : ReservedZero.Statement (.readVoiceState idx) := rsvOf_cmdWord _ _ _
theorem ReservedZero.readVoiceAmp (idx : Nat) : ReservedZero.Statement (.readVoiceAmp idx) := rsvOf_cmdWord _ _ _

end Sys2Proof.Laws
end

