-- ==== Sys2Proof/Tests/Slice0.lean ====
section
/-! SUPPORT. Tests of the model against values that stand in the spec (mostly spec/95_test_vectors.md), and for every statement
with hypotheses a concrete state and operands that meet them. -/

namespace Sys2Proof.Tests

open Sys2Proof.Machine

/-! ### Small states -/

/-- One voice at 100 Hz, square, gain 1.0: spec/95 P1. -/
def cfgP1 : Config := { nvoices := 1, sr := 100, gain := 0x3F800000#32, wave := [.square] }

/-- One voice at 48 kHz, saw, gain 1.0: spec/95 W2 to W4. -/
def cfg48 : Config := { nvoices := 1, sr := 48000, gain := 0x3F800000#32, wave := [.saw] }

/-- The patch of spec/95 P1. -/
def patchP1 : Patch :=
  { attack := 0x3CA3D70A#32, decay := 0x3CA3D70A#32, sustain := 0x3F000000#32, release := 0x3CF5C28F#32, glide := 0#32 }

/-- The patch of spec/95 W2. -/
def patchW2 : Patch :=
  { attack := 0x3CA3D70A#32, decay := 0x3E4CCCCD#32, sustain := 0x3F4CCCCD#32, release := 0x3E4CCCCD#32, glide := 0#32 }

/-- A held voice of target `x` with counter `n`, at phase `ph` and frequency `f`. -/
def held (x f ph : F32) (n : Word32) : Voice :=
  { Voice.reset with active := true, phase := ph, oscFreq := f, endFreq := x, n := n }

/-- The same voice released at counter `nRel` with amplitude `a`. -/
def freed (x f ph : F32) (n nRel : Word32) (a : F32) : Voice :=
  { held x f ph n with rel := true, nRel := nRel, relAmp := a }

/-- A block with given parameters, patch and voices, else as after reset. -/
def block (c : Config) (p : Patch) (vs : List Voice) : State :=
  { State.resetOf c with patch := p, voices := vs }

/-- The next state of an outcome. -/
def nextOf : Host.Outcome State Fault Refusal → Option State
  | .next s => some s
  | .fault _ => none
  | .refused _ => none

/-- The responses after a command that was given to `s`. -/
def respAfter (i : Instr) (s : State) : Option (List Word32) := (nextOf (exec i s)).map State.resp

/-- The voices after a command that was given to `s`. -/
def voicesAfter (i : Instr) (s : State) : Option (List Voice) := (nextOf (exec i s)).map State.voices

/-! ### Well-formedness: every check refuses an ill-formed term -/

theorem test_wf_index_refused :
    (Instr.readVoiceActive (2 ^ 32)).wf = false ∧ (Instr.readVoicePhase (2 ^ 32)).wf = false ∧
    (Instr.readVoiceOscFreq (2 ^ 32)).wf = false ∧ (Instr.readVoiceStart (2 ^ 32)).wf = false ∧
    (Instr.readVoiceEnd (2 ^ 32)).wf = false ∧ (Instr.readVoiceN (2 ^ 32)).wf = false ∧
    (Instr.readVoiceRel (2 ^ 32)).wf = false ∧ (Instr.readVoiceNRel (2 ^ 32)).wf = false ∧
    (Instr.readVoiceRelAmp (2 ^ 32)).wf = false ∧ (Instr.readVoiceRtgAmp (2 ^ 32)).wf = false ∧
    (Instr.readVoiceWave (2 ^ 32)).wf = false ∧ (Instr.readVoiceState (2 ^ 32)).wf = false ∧
    (Instr.readVoiceAmp (2 ^ 32)).wf = false := by decide

theorem test_wf_index_accepted :
    (Instr.readVoiceActive (2 ^ 32 - 1)).wf = true ∧ (Instr.readVoiceAmp 0).wf = true := by decide

/-! ### Decoding: words written out from spec/30_encoding.md R71, R74 to R76 (spec/95 section 2.1) -/

theorem test_decode_engine :
    decode 0x43DC000000000001#64 = .ok (.play 0x43DC0000#32) ∧
    decode 0x43DC000000000002#64 = .ok (.stop 0x43DC0000#32) ∧
    decode 0x0000000000000003#64 = .ok .sample := by decide

theorem test_decode_setters :
    decode 0x3CA3D70A00000010#64 = .ok (.setAttack 0x3CA3D70A#32) ∧
    decode 0x3E4CCCCD00000011#64 = .ok (.setDecay 0x3E4CCCCD#32) ∧
    decode 0x3F4CCCCD00000012#64 = .ok (.setSustain 0x3F4CCCCD#32) ∧
    decode 0x3E4CCCCD00000013#64 = .ok (.setRelease 0x3E4CCCCD#32) ∧
    decode 0x3DCCCCCD00000014#64 = .ok (.setGlide 0x3DCCCCCD#32) := by decide

theorem test_decode_read_reg :
    decode 0x0000000000000020#64 = .ok .readRegStatus ∧ decode 0x0000000000000120#64 = .ok .readRegAttack ∧
    decode 0x0000000000000220#64 = .ok .readRegDecay ∧ decode 0x0000000000000320#64 = .ok .readRegSustain ∧
    decode 0x0000000000000420#64 = .ok .readRegRelease ∧ decode 0x0000000000000520#64 = .ok .readRegGlide ∧
    decode 0x0000000000000620#64 = .ok .readRegGain ∧ decode 0x0000000000000720#64 = .ok .readRegNvoices ∧
    decode 0x0000000000000820#64 = .ok .readRegSr := by decide

theorem test_decode_read_voice :
    decode 0x0000000000000021#64 = .ok (.readVoiceActive 0) ∧ decode 0x0000000100000121#64 = .ok (.readVoicePhase 1) ∧
    decode 0x0000000000000221#64 = .ok (.readVoiceOscFreq 0) ∧ decode 0x0000000000000321#64 = .ok (.readVoiceStart 0) ∧
    decode 0x0000000200000421#64 = .ok (.readVoiceEnd 2) ∧ decode 0x0000000500000521#64 = .ok (.readVoiceN 5) ∧
    decode 0x0000000300000621#64 = .ok (.readVoiceRel 3) ∧ decode 0x0000000000000721#64 = .ok (.readVoiceNRel 0) ∧
    decode 0x0000000000000821#64 = .ok (.readVoiceRelAmp 0) ∧ decode 0x0000000000000921#64 = .ok (.readVoiceRtgAmp 0) ∧
    decode 0x0000000100000A21#64 = .ok (.readVoiceWave 1) ∧ decode 0x0000000000000B21#64 = .ok (.readVoiceState 0) ∧
    decode 0x0000000500000C21#64 = .ok (.readVoiceAmp 5) ∧
    decode 0xFFFFFFFF00000021#64 = .ok (.readVoiceActive 0xFFFFFFFF) := by decide

/-- The illegal words of spec/95 section 2.1, each with its cause of R304. -/
theorem test_decode_illegal :
    decode 0x0000000000000000#64 = .error .opcUnassigned ∧ decode 0x0000000000000004#64 = .error .opcUnassigned ∧
    decode 0x00000000000000FF#64 = .error .opcUnassigned ∧ decode 0x0000000000010001#64 = .error .rsvNonzero ∧
    decode 0x8000000000010002#64 = .error .rsvNonzero ∧ decode 0x43DC000000000101#64 = .error .selNonzero ∧
    decode 0x3F80000000000110#64 = .error .selNonzero ∧ decode 0x0000000100000003#64 = .error .opdNonzero ∧
    decode 0x0000000000000103#64 = .error .selNonzero ∧ decode 0x0000000000000920#64 = .error .selOutOfRange ∧
    decode 0x0000000100000020#64 = .error .opdNonzero ∧ decode 0x0000000000000D21#64 = .error .selOutOfRange := by decide

/-- R71's example, and the serialisation of R52. -/
theorem test_encode_play :
    encode (.play 0x43DC0000#32) = 0x43DC000000000001#64 ∧
    cmdBytes 0x43DC000000000001#64 = [0x01#8, 0x00#8, 0x00#8, 0x00#8, 0x00#8, 0x00#8, 0xDC#8, 0x43#8] := by decide

/-- spec/95 P1's listing and words. -/
theorem test_assemble_P1 :
    assemble "SET_ATTACK 0.02\nSET_SUSTAIN 0.5\nset_release 0.03\nPLAY 25.0\nSAMPLE ; six times\nREAD_VOICE STATE, 0" =
      some [0x3CA3D70A00000010#64, 0x3F00000000000012#64, 0x3CF5C28F00000013#64, 0x41C8000000000001#64,
        0x0000000000000003#64, 0x0000000000000B21#64] := by decide

/-- R80's `f32` forms, and R81's refusal of a count of 0. -/
theorem test_assemble_forms :
    assemble "SET_GLIDE nan\nPLAY -inf\nSTOP 0x43DC0001\nSTOP 440.000030517578125" =
      some [0x7FC0000000000014#64, 0xFF80000000000001#64, 0x43DC000100000002#64, 0x43DC000100000002#64] ∧
    assemble "SAMPLE*0" = none ∧ assemble "NOP" = none := by decide +kernel

/-! ### Arithmetic (spec/95 sections 2.2 to 2.4) -/

theorem test_time :
    tOf cfg48 1#32 = 0x37AEC33E#32 ∧ tOf cfg48 480#32 = 0x3C23D70A#32 ∧ tOf cfgP1 1#32 = 0x3C23D70A#32 ∧
    tOf cfg48 16777216#32 = 0x43AEC33E#32 ∧ tOf cfg48 16777217#32 = 0x43AEC33E#32 ∧
    tOf cfg48 0xFFFFFFFF#32 = 0x47AEC33E#32 ∧ tOf cfg48 24576048#32 = 0x44000010#32 := by decide

theorem test_ratio :
    ratio half posZero = one ∧ ratio half 0x7F800000#32 = posZero ∧ ratio rt 0x00000001#32 = one ∧
    ratio two one = one := by decide +kernel

theorem test_wave :
    waveValue .saw 0x30800000#32 = 0xBF800000#32 ∧ waveValue .saw 0x3EFFFFFF#32 = 0xB3800000#32 ∧
    waveValue .saw 0x3F7FFFFF#32 = 0x3F7FFFFE#32 ∧ waveValue .square 0x3EFFFFFF#32 = one ∧
    waveValue .square 0x3F000000#32 = negOne ∧ fmul twoPi 0x3F7FFFFF#32 = 0x40C90FDA#32 ∧
    waveValue .sine posZero = posZero := by decide

theorem test_osc_set_freq :
    (oscSetFreq cfg48 0x46EA6000#32 Voice.reset).oscFreq = 0x46BB8000#32 ∧
    (oscSetFreq cfg48 0x43DC0000#32 Voice.reset).oscFreq = 0x43DC0000#32 ∧
    (oscSetFreq cfg48 0xC0A00000#32 Voice.reset).oscFreq = 0x00000000#32 := by decide

theorem test_osc_step :
    nextPhase cfgP1 (held 0#32 0x41C80000#32 0x3F400000#32 0#32) = 0x00000000#32 ∧
    nextPhase cfg48 (held 0#32 0x43DC0000#32 0x3F7EB852#32 0#32) = 0x3B888900#32 ∧
    nextPhase cfg48 (held 0#32 0x3A83126F#32 0x3F000000#32 0#32) = 0x3F000000#32 := by decide

theorem test_glide :
    (instFreq cfg48 { patchW2 with glide := 0x3DCCCCCD#32 }
      { held 0x43DC0000#32 0#32 0#32 4799#32 with start := 0x435C0000#32 }) = 0x43DBFA22#32 ∧
    (instFreq cfg48 { patchW2 with glide := 0x00000000#32 }
      { held 0x3DCCCCCD#32 0#32 0#32 0#32 with start := 0x447A0000#32 }) = 0x3DCCC000#32 := by decide

/-! ### Envelope (spec/95 W2, W3, section 2.2) -/

theorem test_envelope_rise :
    ampAt cfg48 patchW2 (held one one 0#32 481#32) = 0x3A888920#32 ∧
    ampAt cfg48 patchW2 (held one one 0#32 1440#32) = one ∧
    ampAt cfg48 patchW2 (held one one 0#32 1441#32) = 0x3F7FFEA2#32 ∧
    ampAt cfg48 patchW2 (held one one 0#32 11039#32) = 0x3F4CCE2A#32 ∧
    ampAt cfg48 patchW2 (held one one 0#32 11041#32) = 0x3F4CCCCD#32 := by decide

theorem test_envelope_release :
    ampAt cfg48 patchW2 (freed one one 0#32 20639#32 11040#32 0x3F4CCCCD#32) = 0x38AEB333#32 ∧
    isDone cfg48 patchW2 (freed one one 0#32 20639#32 11040#32 0x3F4CCCCD#32) = false ∧
    isDone cfg48 patchW2 (freed one one 0#32 20640#32 11040#32 0x3F4CCCCD#32) = true := by decide

theorem test_envelope_fade :
    ampAt cfg48 patchW2 { held one one 0#32 1#32 with rtgAmp := half } = 0x3EFF7777#32 ∧
    ampAt cfg48 patchW2 { held one one 0#32 479#32 with rtgAmp := half } = 0x3A888800#32 ∧
    ampAt cfg48 patchW2 { held one one 0#32 480#32 with rtgAmp := half } = posZero := by decide

/-- R130's codes, with the corner of P1: `t_of(5)` is one last place above `eD`. -/
theorem test_envelope_states :
    (envState cfgP1 patchP1 (held one one 0#32 1#32)).code = 0#32 ∧
    (envState cfgP1 patchP1 (held one one 0#32 2#32)).code = 1#32 ∧
    (envState cfgP1 patchP1 (held one one 0#32 4#32)).code = 2#32 ∧
    (envState cfgP1 patchP1 (held one one 0#32 5#32)).code = 3#32 ∧
    (envState cfgP1 patchP1 (freed one one 0#32 8#32 6#32 half)).code = 4#32 ∧
    (envState cfgP1 patchP1 (freed one one 0#32 9#32 6#32 half)).code = 5#32 := by decide

/-! ### PLAY, STOP, SAMPLE -/

/-- spec/95 section 2.6: PLAY 40.0 on a voice at 20 Hz, here captured at the P1 attack's middle. -/
theorem test_play_fields :
    voicesAfter (.play 0x42200000#32) (block cfgP1 patchP1 [held 0x41A00000#32 0x41A00000#32 half 2#32]) =
      some [{ held 0x42200000#32 0x41A00000#32 half 0#32 with start := 0x41A00000#32, rtgAmp := half }] := by decide +kernel

/-- spec/95 W5: the tie between distances 55 and 55 goes to the first of them. -/
theorem test_play_steals_nearest :
    (voicesAfter (.play 0x43C08000#32) (block { cfgP1 with nvoices := 3, wave := [.saw, .saw, .saw] } Patch.reset
      [held 0x435C0000#32 0#32 0#32 0#32, held 0x43A50000#32 0#32 0#32 0#32, held 0x43DC0000#32 0#32 0#32 0#32])).map
        (List.map Voice.endFreq) = some [0x435C0000#32, 0x43C08000#32, 0x43DC0000#32] := by decide

/-- spec/95 section 2.6: both voices of 440 Hz are released, the idle one is not. -/
theorem test_stop_matches :
    (voicesAfter (.stop 0x43DC0000#32) (block { cfgP1 with nvoices := 3, wave := [.saw, .saw, .saw] } Patch.reset
      [held 0x43DC0000#32 0#32 0#32 7#32, held 0x43DC0000#32 0#32 0#32 7#32,
        { held 0x43DC0000#32 0#32 0#32 7#32 with active := false }])).map
          (List.map fun v => (v.rel, v.nRel)) = some [(true, 7#32), (true, 7#32), (false, 0#32)] := by decide

/-- spec/95 W7: a second STOP captures nothing. -/
theorem test_stop_again :
    voicesAfter (.stop one) (block cfg48 patchW2 [freed one one 0#32 11100#32 11040#32 0x3F4CCCCD#32]) =
      some [freed one one 0#32 11100#32 11040#32 0x3F4CCCCD#32] := by decide

/-- spec/95 P1, command 14: the last sample of a release is returned, and the voice deactivates after it. -/
theorem test_sample_last_of_release :
    nextOf (exec .sample (block cfgP1 patchP1 [freed 0x41C80000#32 0x41C80000#32 posZero 8#32 6#32 half])) =
      some { block cfgP1 patchP1 [{ freed 0x41C80000#32 0x41C80000#32 0x3E800000#32 9#32 6#32 half with active := false }] with
        resp := [0x3E2AAAAA#32] } := by decide +kernel

/-- spec/95 section 2.6, mixer overflow: two voices of gain 3e38 sum to `+inf`. -/
theorem test_sample_overflows :
    respAfter .sample (block { nvoices := 2, sr := 100, gain := 0x7F61B1E6#32, wave := [.square, .square] } Patch.reset
      [held one one posZero 2#32, held two two posZero 2#32]) = some [0x7F800000#32] := by decide

/-- spec/95 section 2.2: a saturated counter holds. -/
theorem test_counter_saturates :
    satInc 0xFFFFFFFF#32 = 0xFFFFFFFF#32 ∧ satInc 0xFFFFFFFE#32 = 0xFFFFFFFF#32 := by decide

/-! ### Setters (spec/95 section 2.7) -/

theorem test_setters_store :
    (nextOf (exec (.setAttack 0x7F800000#32) State.reset)).map (fun s => (s.patch.attack, s.status)) =
      some (0x7F800000#32, 0#32) ∧
    (nextOf (exec (.setDecay 0xBF800000#32) State.reset)).map (fun s => (s.patch.decay, s.status)) =
      some (0#32, 2#32) ∧
    (nextOf (exec (.setSustain 0x3F800001#32) State.reset)).map (fun s => (s.patch.sustain, s.status)) =
      some (0x3F800000#32, 2#32) ∧
    (nextOf (exec (.setRelease 0x80000000#32) State.reset)).map (fun s => (s.patch.release, s.status)) =
      some (0#32, 0#32) ∧
    (nextOf (exec (.setGlide 0x3DCCCCCD#32) State.reset)).map (fun s => (s.patch.glide, s.status)) =
      some (0x3DCCCCCD#32, 0#32) := by decide

theorem test_setters_discard_nan :
    (nextOf (exec (.setSustain 0xFFC00001#32) State.reset)).map (fun s => (s.patch.sustain, s.status)) =
      some (0x3F800000#32, 2#32) ∧
    (nextOf (exec (.setGlide 0x7FC00000#32) (block cfgP1 { patchP1 with glide := half } [Voice.reset]))).map
      (fun s => (s.patch.glide, s.status)) = some (half, 2#32) := by decide

/-! ### Reads (spec/95 section 2.8) -/

theorem test_read_reg :
    respAfter .readRegStatus State.reset = some [0#32] ∧ respAfter .readRegAttack State.reset = some [0#32] ∧
    respAfter .readRegDecay State.reset = some [0#32] ∧ respAfter .readRegSustain State.reset = some [0x3F800000#32] ∧
    respAfter .readRegRelease State.reset = some [0#32] ∧ respAfter .readRegGlide State.reset = some [0#32] ∧
    respAfter .readRegGain State.reset = some [0x3E800000#32] ∧ respAfter .readRegNvoices State.reset = some [4#32] ∧
    respAfter .readRegSr State.reset = some [0xBB80#32] := by decide

/-- Each field of one voice, told apart by its value. -/
theorem test_read_voice_fields :
    let s := block cfgP1 patchP1 [⟨true, 11#32, 12#32, 13#32, 14#32, 15#32, true, 7#32, 18#32, 19#32⟩]
    respAfter (.readVoiceActive 0) s = some [1#32] ∧ respAfter (.readVoicePhase 0) s = some [11#32] ∧
    respAfter (.readVoiceOscFreq 0) s = some [12#32] ∧ respAfter (.readVoiceStart 0) s = some [13#32] ∧
    respAfter (.readVoiceEnd 0) s = some [14#32] ∧ respAfter (.readVoiceN 0) s = some [15#32] ∧
    respAfter (.readVoiceRel 0) s = some [1#32] ∧ respAfter (.readVoiceNRel 0) s = some [7#32] ∧
    respAfter (.readVoiceRelAmp 0) s = some [18#32] ∧ respAfter (.readVoiceRtgAmp 0) s = some [19#32] := by decide

theorem test_read_voice_derived :
    respAfter (.readVoiceWave 1) State.reset = some [1#32] ∧ respAfter (.readVoiceWave 2) State.reset = some [2#32] ∧
    respAfter (.readVoiceState 1) State.reset = some [0#32] ∧ respAfter (.readVoiceAmp 1) State.reset = some [0#32] ∧
    (nextOf (exec (.readVoiceActive 4) State.reset)).map (fun s => (s.resp, s.status)) = some ([], 2#32) := by decide

/-- spec/95 section 2.2, "patch change on a done voice": the amplitude a longer release brings back. -/
theorem test_read_voice_amp_of_done_voice :
    let v := { freed 0x41C80000#32 0x41C80000#32 0x3E800000#32 9#32 6#32 half with active := false }
    respAfter (.readVoiceAmp 0) (block cfgP1 patchP1 [v]) = some [0#32] ∧
    respAfter (.readVoiceAmp 0) (block cfgP1 { patchP1 with release := one } [v]) = some [0x3EF851EC#32] ∧
    respAfter (.readVoiceState 0) (block cfgP1 { patchP1 with release := one } [v]) = some [4#32] := by decide

/-! ### Steps -/

/-- R302, R407: the illegal word of the rule sets ILL and appends nothing. -/
theorem test_step_illegal :
    nextOf (step (State.reset.withFetchWord 64 0x0000000100000003)) = some { State.reset with status := 1#32 } := by decide

/-- spec/95 section 2.10: the first command after reset. -/
theorem test_step_first_sample :
    nextOf (step (State.reset.withFetchWord 64 0x3)) = some { State.reset with resp := [0#32] } ∧
    decodeTableWord 64 0x3 = some .sample ∧ decodeTableWord 32 0x100000003 = some .sample := by decide

/-! ### Witnesses: states and operands that meet the hypotheses of the statements -/

/-- Four voices under spec/95 section 2.8's parameters: held, released, released at a saturated counter, idle. -/
def busy : State :=
  block Config.vectors28 { patchP1 with release := one }
    [held 0x43DC0000#32 0x43DC0000#32 half 4800#32, freed 0x435C0000#32 0x435C0000#32 posZero 9#32 6#32 half,
      freed 0x43A50000#32 0x43A50000#32 0x3F7FFFFF#32 0xFFFFFFFF#32 0xFFFFFFFF#32 one, Voice.reset]

/-- `busy` with every duration infinite. -/
def busyInf : State :=
  { busy with patch := ⟨0x7F800000#32, 0x7F800000#32, half, 0x7F800000#32, 0x7F800000#32⟩ }

/-- The bounds of the parameter ranges R6 and R7. -/
theorem witness_ConfigWf :
    ConfigWf { nvoices := 1, sr := 1, gain := 0xFF7FFFFF#32, wave := [.sine] } ∧
    ConfigWf { nvoices := 1, sr := 2 ^ 24, gain := 0#32, wave := [.saw] } := by decide

theorem witness_Inv_busy : Inv busy :=
  ⟨by decide, by decide, by decide, by decide, by decide, by decide⟩

theorem witness_Inv_busyInf : Inv busyInf :=
  ⟨by decide, by decide, by decide, by decide, by decide, by decide⟩

theorem witness_Inv_reset : Inv State.reset :=
  ⟨by decide, by decide, by decide, by decide, by decide, by decide⟩

theorem witness_DecodeOfEncodeIsInstr : WellFormed (.readVoiceAmp (2 ^ 32 - 1)) ∧ WellFormed (.play 0xFFFFFFFF#32) := by decide

theorem witness_EncodeOfDecodeIsWord : decode 0xFFFFFFFF00000C21#64 = .ok (.readVoiceAmp (2 ^ 32 - 1)) := by decide

theorem witness_BytesAreLittleEndian :
    ([1#8, 2#8, 3#8, 4#8, 5#8, 6#8, 7#8, 0xFF#8] : List Byte).length = 8 := by decide

theorem witness_StepRunsDecodedCommand :
    (State.reset.withFetchWord 64 0x43DC000000000001).input = [.command 0x43DC000000000001#64] ∧
    decode 0x43DC000000000001#64 = .ok (.play 0x43DC0000#32) := by decide

theorem witness_IllegalWordSetsIllOnly :
    (busy.withFetchWord 64 0).input = [.command 0#64] ∧ decode 0#64 = .error .opcUnassigned ∧
    (let s := { busy with status := 1#32, input := [.command 3#64] };
      (∃ t, step s = .next t) ∧ s.input.head? ≠ some .reset ∧ s.status.getLsbD 0 = true) :=
  ⟨by decide, by decide, ⟨_, rfl⟩, by decide, by decide⟩

theorem witness_ResetInputGivesResetValues : { busy with input := [.reset, .take] }.input = .reset :: [.take] := rfl

theorem witness_ResetKeepsInputsToCome : { busy with input := [.reset, .take] }.input = .reset :: [.take] := rfl

theorem witness_WaitingHoldsAllState : busy.input = [] := rfl

theorem witness_TakeRemovesOldestResponse :
    (let s := { busy with input := [.take], resp := [7#32, 8#32] };
      s.input = .take :: [] ∧ s.resp = 7#32 :: [8#32]) ∧
    (let s := { busy with input := [.take] };
      s.input = .take :: [] ∧ s.resp = []) := by decide

/-- Finite operands at both ends: the least subnormal, the largest finite value, and a zero for the dividend. -/
theorem witness_rounding_operands :
    isFinite 0x00000001#32 = true ∧ isFinite 0xFF7FFFFF#32 = true ∧ isFinite 0x80000000#32 = true ∧
    unitsOf 0x00000001#32 ≠ 0 ∧ unitsOf 0xFF7FFFFF#32 ≠ 0 := by decide

/-- Both sides of the overflow threshold, at it and one unit below it. -/
theorem witness_RoundsTo :
    2 * |(2 ^ 25 - 1) * 2 ^ 252 - (1 : Int)| < (2 ^ 25 - 1) * 2 ^ 253 * ((1 : Nat) : Int) ∧
    (2 ^ 25 - 1) * 2 ^ 253 * ((1 : Nat) : Int) ≤ 2 * |(2 ^ 25 - 1) * 2 ^ 252| := by norm_num

theorem witness_ToF32RoundsToNearestEven : 2 ^ 24 ≤ 2 ^ 24 := by decide

theorem witness_ComparisonsFollowValues :
    (isFinite 0x00000000#32 = true ∧ isFinite 0x80000000#32 = true) ∧
    (isNaN 0x7F800000#32 = false ∧ isNaN 0xFF800000#32 = false) ∧
    (isNaN 0x7F800001#32 = true ∨ isNaN 0#32 = true) := by decide

theorem witness_ElapsedTimeIsMonotone :
    ConfigWf cfg48 ∧ (0x1000000#32 : Word32).toNat ≤ 2 ^ 24 ∧
    (0xFFFFFFFE#32 : Word32).toNat ≤ (0xFFFFFFFF#32 : Word32).toNat := by decide

theorem witness_WaveformsStayInRange : PhaseLegal 0x00000000#32 ∧ PhaseLegal 0x3F7FFFFF#32 ∧ PhaseLegal 0x3F000000#32 := by decide

theorem witness_GlideRatioRunsFromZeroToOne :
    ConfigWf cfg48 ∧ DurationLegal 0x00000000#32 ∧ DurationLegal 0x7F800000#32 ∧ DurationLegal 0x3DCCCCCD#32 ∧
    fle 0x3DCCCCCD#32 (tOf cfg48 (held one one 0#32 4800#32).n) = true ∧ (held one one 0#32 0#32).n = 0#32 ∧
    (0x3DCCCCCD#32 : F32) ≠ 0#32 := by decide

theorem witness_AllocatorPrefersIdleElseNearest :
    (∃ v ∈ busy.voices, v.active = false) ∧
    (busy.voices.take 3 ≠ [] ∧ playable 0x7F7FFFFF#32 = true ∧ playable 0x00000001#32 = true ∧
      ∀ v ∈ busy.voices.take 3, v.active = true ∧ playable v.endFreq = true) := by decide

theorem witness_AllocatorStaysInPool :
    busy.voices ≠ [] ∧ Inv busy ∧ ∃ t, step busy = .next t :=
  ⟨by decide, witness_Inv_busy, _, rfl⟩

theorem witness_PlayTriggersTheChosenVoice :
    busy.voices ≠ [] ∧ (0 < (0x00000001#32 : F32).toNat ∧ (0x00000001#32 : F32).toNat < 0x7F800000) ∧
    (0 < (0x7F7FFFFF#32 : F32).toNat ∧ (0x7F7FFFFF#32 : F32).toNat < 0x7F800000) ∧
    (0x00000000#32 : F32).toNat = 0 ∧ 0x7F800000 ≤ (0x7F800000#32 : F32).toNat ∧
    0x7F800000 ≤ (0x80000000#32 : F32).toNat := by decide

theorem witness_RetriggerIsContinuous : Inv busy ∧ playable 0x43DC0000#32 = true :=
  ⟨witness_Inv_busy, by decide⟩

theorem witness_StopWithoutMatchChangesNothing :
    ∀ v ∈ busy.voices, v.active = true → v.endFreq ≠ 0x43DC0001#32 := by decide

theorem witness_StopIsIdempotent : ∃ t, exec (.stop 0x43DC0000#32) busy = .next t := ⟨_, rfl⟩

/-- PLAY of 440 takes voice 3 of `busy`; STOP of 440 releases voice 0, here with and without a release time. -/
theorem witness_PlayAndStopSetEnvelopeState :
    (ConfigWf busy.cfg ∧ playable 0x43DC0000#32 = true ∧ selectVoice 0x43DC0000#32 busy.voices = 3 ∧
      (∃ t, exec (.play 0x43DC0000#32) busy = .next t ∧ ∃ w, t.voices[3]? = some w)) ∧
    (PatchLegal busy.patch ∧ PatchLegal { busy.patch with release := 0#32 } ∧
      busy.voices[0]? = some (held 0x43DC0000#32 0x43DC0000#32 half 4800#32) ∧
      ∃ t, exec (.stop 0x43DC0000#32) busy = .next t ∧ ∃ w, t.voices[0]? = some w) :=
  ⟨⟨by decide, by decide, by decide, _, rfl, _, rfl⟩, by decide, by decide, rfl, _, rfl, _, rfl⟩

theorem witness_ReleaseRunsFromCaptureToSilence :
    (Inv busy ∧ busy.patch.release ≠ 0x00000000#32 ∧
      ∃ t w, exec (.stop 0x43DC0000#32) busy = .next t ∧
        busy.voices[0]? = some (held 0x43DC0000#32 0x43DC0000#32 half 4800#32) ∧ t.voices[0]? = some w) ∧
    (let s := block cfgP1 patchP1 [freed 0x41C80000#32 0x41C80000#32 0x3E800000#32 9#32 6#32 half];
      Inv s ∧ ∀ v ∈ s.voices, isDone s.cfg s.patch v = true) :=
  ⟨⟨witness_Inv_busy, by decide, _, _, rfl, rfl, rfl⟩,
    ⟨by decide, by decide, by decide, by decide, by decide, by decide⟩, by decide⟩

theorem witness_SampleOfIdlePoolIsSilent : ∀ v ∈ State.reset.voices, v.active = false := by decide

theorem witness_SampleKeepsVoicesApart :
    let s' := { busy with voices := busy.voices.set 1 Voice.reset }
    busy.cfg = s'.cfg ∧ busy.patch = s'.patch ∧ busy.voices[0]? = s'.voices[0]? ∧
    (∃ t, exec .sample busy = .next t) ∧ ∃ t, exec .sample s' = .next t :=
  ⟨rfl, rfl, rfl, ⟨_, rfl⟩, _, rfl⟩

theorem witness_MixIsNeverNegativeZeroOrNaN :
    Inv busy ∧ (isInf 0xFF800000#32 = true ∧ isFinite 0x7F7FFFFF#32 = true) :=
  ⟨witness_Inv_busy, by decide⟩

theorem witness_VoiceSampleIsWithinGain :
    Inv busy ∧ busy.voices[0]? = some (held 0x43DC0000#32 0x43DC0000#32 half 4800#32) ∧
    (held 0x43DC0000#32 0x43DC0000#32 half 4800#32).active = true :=
  ⟨witness_Inv_busy, rfl, rfl⟩

theorem witness_ZeroReleaseStopsAtNextSample :
    let s := { busy with patch := Patch.reset }
    ConfigWf s.cfg ∧ s.patch.release = 0x00000000#32 ∧
    s.voices[0]? = some (held 0x43DC0000#32 0x43DC0000#32 half 4800#32) ∧
    ∃ t u w, exec (.stop 0x43DC0000#32) s = .next t ∧ exec .sample t = .next u ∧ u.voices[0]? = some w :=
  ⟨by decide, rfl, rfl, _, _, _, rfl, rfl, rfl⟩

theorem witness_InfiniteDurationsNeverEnd :
    Inv busyInf ∧ busyInf.patch.release = 0x7F800000#32 ∧ busyInf.patch.glide = 0x7F800000#32 ∧
    busyInf.patch.attack = 0x7F800000#32 ∧
    busyInf.voices[0]? = some (held 0x43DC0000#32 0x43DC0000#32 half 4800#32) ∧
    flt 0x3C23D70A#32 (tOf busyInf.cfg 4800#32) = true ∧ flt 0x3C23D70A#32 (tOf busyInf.cfg 481#32) = true ∧
    busyInf.voices[1]? = some (freed 0x435C0000#32 0x435C0000#32 posZero 9#32 6#32 half) ∧
    ∃ t w, exec .sample busyInf = .next t ∧ t.voices[1]? = some w :=
  ⟨witness_Inv_busyInf, rfl, rfl, rfl, rfl, by decide, by decide, rfl, _, _, rfl, rfl⟩

theorem witness_SaturatedReleaseNeverEnds :
    Inv busy ∧ busy.patch.release ≠ 0x00000000#32 ∧
    (let v := freed 0x43A50000#32 0x43A50000#32 0x3F7FFFFF#32 0xFFFFFFFF#32 0xFFFFFFFF#32 one;
      busy.voices[2]? = some v ∧ v.active = true ∧ v.rel = true ∧ v.n = 0xFFFFFFFF#32 ∧ v.nRel = 0xFFFFFFFF#32) ∧
    ∃ t w, exec .sample busy = .next t ∧ t.voices[2]? = some w :=
  ⟨witness_Inv_busy, by decide, ⟨rfl, rfl, rfl, rfl, rfl⟩, _, _, rfl, rfl⟩

/-- A voice in each branch, at the branch's first or last sample. -/
theorem witness_EnvelopeBranchesGiveAmplitudeAndState :
    let eA := fadd 0x3C23D70A#32 patchW2.attack
    let eD := fadd eA patchW2.decay
    fle (tOf cfg48 480#32) 0x3C23D70A#32 = true ∧
    (fle (tOf cfg48 481#32) 0x3C23D70A#32 = false ∧ fle (tOf cfg48 1440#32) eA = true) ∧
    (fle (tOf cfg48 1441#32) eA = false ∧ fle (tOf cfg48 11040#32) eD = true) ∧
    fle (tOf cfg48 11041#32) eD = false ∧
    (freed one one 0#32 9#32 6#32 half).rel = true ∧ (held one one 0#32 480#32).rel = false := by decide

theorem witness_DoneIsTerminalUntilTrigger :
    let v := freed 0x41C80000#32 0x41C80000#32 0x3E800000#32 9#32 6#32 half
    let s := block cfgP1 patchP1 [v]
    Inv s ∧ (∃ t w, exec .sample s = .next t ∧ t.voices[0]? = some w) ∧ (∀ x, Instr.sample ≠ .play x) ∧
    (∀ x, Instr.sample ≠ .setRelease x) ∧ s.voices[0]? = some v ∧ envState s.cfg s.patch v = .done :=
  ⟨⟨by decide, by decide, by decide, by decide, by decide, by decide⟩, ⟨_, _, rfl, rfl⟩, by simp, by simp, rfl, by decide⟩

theorem witness_ReadVoiceAppendsItsField :
    (3 < busy.cfg.nvoices ∧ busy.voices[3]? = some Voice.reset ∧ busy.cfg.wave[3]? = some .sine) ∧
    (voiceRead (.readVoiceAmp 4) = some 4 ∧ busy.cfg.nvoices ≤ 4) := by decide

theorem witness_ReadsAreIdempotent :
    (isRead (.readVoiceActive 3) = true ∧ (∀ k, voiceRead (.readVoiceActive 3) = some k → k < busy.cfg.nvoices) ∧
      ∃ t, exec (.readVoiceActive 3) busy = .next t) ∧
    (isRead .readRegSr = true ∧ (∀ k, voiceRead .readRegSr = some k → k < busy.cfg.nvoices) ∧
      ∃ t, exec .readRegSr busy = .next t) ∧
    (isRead (.readVoiceActive 4) = true ∧ voiceRead (.readVoiceActive 4) = some 4 ∧ busy.cfg.nvoices ≤ 4 ∧
      ∃ t, exec (.readVoiceActive 4) busy = .next t) :=
  ⟨⟨rfl, by rintro k ⟨⟩; decide, _, rfl⟩, ⟨rfl, nofun, _, rfl⟩, rfl, rfl, by decide, _, rfl⟩

theorem witness_SetterIsVisibleAtOnce :
    (0x7F800000#32 : F32).toNat ≤ 0x7F800000 ∧ (0x3F800000#32 : F32).toNat ≤ 0x3F800000 := by decide

theorem witness_StatusBitsAreSticky :
    (∃ t, exec (.play 0#32) busy = .next t) ∧
    (decode 0#64 = .error .opcUnassigned ∧ ∃ t, runWord 0#64 busy = .next t) ∧
    (let s := { busy with status := 3#32, input := [.take] };
      (∃ t, step s = .next t) ∧ s.input.head? ≠ some .reset ∧ s.status.getLsbD 1 = true) :=
  ⟨⟨_, rfl⟩, ⟨by decide, _, rfl⟩, ⟨_, rfl⟩, by decide, by decide⟩

theorem witness_OnlyThreeCommandsRespond :
    (responds (.play one) = false ∧ ∃ t, exec (.play one) busy = .next t) ∧
    (responds .readRegStatus = true ∧ voiceRead .readRegStatus = none ∧ ∃ t, exec .readRegStatus busy = .next t) :=
  ⟨⟨rfl, _, rfl⟩, rfl, rfl, _, rfl⟩

/-- One command for each clause: a setter, a read in the pool, and PLAY, STOP and SAMPLE on a voice of the pool. -/
theorem witness_EachCommandWritesOnlyItsOwn :
    (writesVoices (.setGlide one) = false ∧ (∀ x, Instr.setGlide one ≠ .setDecay x) ∧
      responds (.setGlide one) = false ∧ ∃ t, exec (.setGlide one) busy = .next t) ∧
    (responds (.readVoiceN 3) = true ∧ (∀ k, voiceRead (.readVoiceN 3) = some k → k < busy.cfg.nvoices) ∧
      ∃ t, exec (.readVoiceN 3) busy = .next t) ∧
    (busy.voices[3]? = some Voice.reset ∧ ∃ t w, exec (.play one) busy = .next t ∧ t.voices[3]? = some w) ∧
    (busy.voices[0]? = some (held 0x43DC0000#32 0x43DC0000#32 half 4800#32) ∧
      (∃ t w, exec (.stop 0x43DC0000#32) busy = .next t ∧ t.voices[0]? = some w) ∧
      ∃ t w, exec .sample busy = .next t ∧ t.voices[0]? = some w) :=
  ⟨⟨rfl, nofun, rfl, _, rfl⟩, ⟨rfl, by rintro k ⟨⟩; decide, _, rfl⟩, ⟨rfl, _, _, rfl, rfl⟩, rfl, ⟨_, _, rfl, rfl⟩,
    _, _, rfl, rfl⟩

/-- The four changes, one after the other: SAMPLE ends a voice, PLAY starts one, STOP releases one, PLAY takes the release back. -/
theorem witness_VoiceFlagsChangeOnlyAsListed :
    (voicesAfter .sample (block cfgP1 patchP1 [freed one one 0#32 8#32 6#32 half])).map (List.map Voice.active) = some [false] ∧
    (voicesAfter (.play one) (block cfgP1 patchP1 [Voice.reset])).map (List.map Voice.active) = some [true] ∧
    (voicesAfter (.stop one) (block cfgP1 patchP1 [held one one 0#32 8#32])).map (List.map Voice.rel) = some [true] ∧
    (voicesAfter (.play one) (block cfgP1 patchP1 [freed one one 0#32 8#32 6#32 half])).map (List.map Voice.rel) =
      some [false] := by decide

theorem witness_StepKeepsTheInvariant : Inv busy ∧ ∃ t, step { busy with input := [.command 3#64] } = .next t :=
  ⟨witness_Inv_busy, _, rfl⟩

end Sys2Proof.Tests
end

section
/-! PROOFS. Comparisons and sine (spec/00_scope.md R10, R13).  The order of R13 is held by `rankOf`; it is the order of the
values because a value is a strictly monotone, odd function of its rank. -/

namespace Sys2Proof.Proofs

open Sys2Proof.Machine Sys2Proof.Laws

/-! ### Magnitudes -/

theorem isNaN_iff_magOf (a : F32) : isNaN a = true ↔ 0x7F800000 < magOf a := decide_eq_true_iff

theorem not_nan_iff_magOf (a : F32) : isNaN a = false ↔ magOf a ≤ 0x7F800000 :=
  decide_eq_false_iff_not.trans not_lt

theorem isFinite_iff_magOf (a : F32) : isFinite a = true ↔ magOf a < 0x7F800000 := decide_eq_true_iff

/-! ### The comparisons on ranks -/

theorem flt_eq_rank {a b : F32} (ha : isNaN a = false) (hb : isNaN b = false) :
    flt a b = decide (rankOf a < rankOf b) := by simp [flt, ha, hb]

theorem fle_eq_rank {a b : F32} (ha : isNaN a = false) (hb : isNaN b = false) :
    fle a b = decide (rankOf a ≤ rankOf b) := by simp [fle, ha, hb]

theorem feq_eq_rank {a b : F32} (ha : isNaN a = false) (hb : isNaN b = false) :
    feq a b = decide (rankOf a = rankOf b) := by simp [feq, ha, hb]

theorem comparisons_with_nan {a b : F32} (h : isNaN a = true ∨ isNaN b = true) :
    flt a b = false ∧ fle a b = false ∧ feq a b = false := by
  rcases h with h | h <;> simp [flt, fle, feq, h]

/-! ### Ranks order as values do -/

theorem unitsOf_le_iff (a b : F32) : unitsOf a ≤ unitsOf b ↔ rankOf a ≤ rankOf b := by
  have hab := unitsOfMag_le_iff (a := magOf a) (b := magOf b)
  have hba := unitsOfMag_le_iff (a := magOf b) (b := magOf a)
  have ha := unitsOfMag_le_iff (a := magOf a) (b := 0)
  have hb := unitsOfMag_le_iff (a := magOf b) (b := 0)
  rw [unitsOfMag_zero] at ha hb
  unfold unitsOf rankOf
  cases signOf a <;> cases signOf b <;> simp only [Bool.false_eq_true, if_true, if_false] <;> omega

theorem unitsOf_lt_iff (a b : F32) : unitsOf a < unitsOf b ↔ rankOf a < rankOf b := by
  rw [← not_le, ← not_le, unitsOf_le_iff]

theorem unitsOf_eq_iff (a b : F32) : unitsOf a = unitsOf b ↔ rankOf a = rankOf b := by
  rw [le_antisymm_iff, le_antisymm_iff, unitsOf_le_iff, unitsOf_le_iff]

/-! ### The infinities bound the ranks -/

theorem rankOf_posInf : rankOf 0x7F800000#32 = 0x7F800000 := by decide

theorem rankOf_negInf : rankOf 0xFF800000#32 = -0x7F800000 := by decide

theorem abs_rankOf (a : F32) : |rankOf a| = magOf a := by
  unfold rankOf
  cases signOf a <;> simp

theorem abs_rankOf_le_of_not_nan {a : F32} (h : isNaN a = false) : |rankOf a| ≤ 0x7F800000 := by
  rw [abs_rankOf]; exact_mod_cast (not_nan_iff_magOf a).mp h

theorem abs_rankOf_lt_of_finite {a : F32} (h : isFinite a = true) : |rankOf a| < 0x7F800000 := by
  rw [abs_rankOf]; exact_mod_cast (isFinite_iff_magOf a).mp h

theorem finite_between_infinities {a : F32} (h : isFinite a = true) :
    flt a 0x7F800000#32 = true ∧ flt 0xFF800000#32 a = true := by
  have hn := finite_not_nan h
  obtain ⟨hlo, hhi⟩ := abs_lt.mp (abs_rankOf_lt_of_finite h)
  rw [flt_eq_rank hn (by decide), flt_eq_rank (by decide) hn, rankOf_posInf, rankOf_negInf]
  exact ⟨decide_eq_true hhi, decide_eq_true hlo⟩

theorem not_nan_within_infinities {a : F32} (h : isNaN a = false) :
    fle a 0x7F800000#32 = true ∧ fle 0xFF800000#32 a = true := by
  obtain ⟨hlo, hhi⟩ := abs_le.mp (abs_rankOf_le_of_not_nan h)
  rw [fle_eq_rank h (by decide), fle_eq_rank (by decide) h, rankOf_posInf, rankOf_negInf]
  exact ⟨decide_eq_true hhi, decide_eq_true hlo⟩

theorem comparisons_total {a b : F32} (ha : isNaN a = false) (hb : isNaN b = false) :
    flt a b = !fle b a ∧ feq a b = (fle a b && fle b a) := by
  rw [flt_eq_rank ha hb, feq_eq_rank ha hb, fle_eq_rank ha hb, fle_eq_rank hb ha]
  constructor
  · simp only [← decide_not, not_le]
  · simp only [← Bool.decide_and, le_antisymm_iff]

theorem comparisons_of_finite {a b : F32} (ha : isFinite a = true) (hb : isFinite b = true) :
    (flt a b = true ↔ unitsOf a < unitsOf b) ∧ (fle a b = true ↔ unitsOf a ≤ unitsOf b) ∧
      (feq a b = true ↔ unitsOf a = unitsOf b) := by
  have hna := finite_not_nan ha
  have hnb := finite_not_nan hb
  rw [flt_eq_rank hna hnb, fle_eq_rank hna hnb, feq_eq_rank hna hnb, unitsOf_lt_iff, unitsOf_le_iff, unitsOf_eq_iff]
  simp only [decide_eq_true_eq, and_self]

/-! ### The fields of a pattern -/

theorem exponent_toNat (a : F32) : (a.extractLsb' 23 8).toNat = magOf a / 2 ^ 23 := by
  rw [BitVec.extractLsb'_toNat, Nat.shiftRight_eq_div_pow]; unfold magOf; omega

theorem fraction_toNat (a : F32) : (a.extractLsb' 0 23).toNat = magOf a % 2 ^ 23 := by
  rw [BitVec.extractLsb'_toNat, Nat.shiftRight_zero]; unfold magOf; omega

theorem isNaN_iff_fields (a : F32) :
    isNaN a = true ↔ a.extractLsb' 23 8 = 0xFF#8 ∧ a.extractLsb' 0 23 ≠ 0#23 := by
  have := magOf_lt a
  rw [isNaN_iff_magOf, ne_eq, BitVec.toNat_eq, BitVec.toNat_eq, exponent_toNat, fraction_toNat]
  simp only [BitVec.toNat_ofNat]; omega

theorem isFinite_iff_exponent (a : F32) : isFinite a = true ↔ a.extractLsb' 23 8 ≠ 0xFF#8 := by
  have := magOf_lt a
  rw [isFinite_iff_magOf, ne_eq, BitVec.toNat_eq, exponent_toNat]
  simp only [BitVec.toNat_ofNat]; omega

theorem beqBits_iff (a b : F32) : beqBits a b = true ↔ a = b := decide_eq_true_iff

/-- Settles O17: every clause goes through the ranks, which are ordered as the values and bounded by those of the infinities. -/
theorem comparisonsFollowValues : Obligations.ComparisonsFollowValues := by
  refine ⟨fun _ _ => comparisons_of_finite, fun _ => finite_between_infinities, ?_, fun _ _ => comparisons_with_nan,
    beqBits_iff, fun a => ⟨isNaN_iff_fields a, isFinite_iff_exponent a⟩⟩
  intro a b ha hb
  obtain ⟨hlt, heq⟩ := comparisons_total ha hb
  exact ⟨hlt, heq, not_nan_within_infinities ha⟩

/-! ### Sine -/

theorem not_nan_of_fle {a b : F32} (h : fle a b = true) : isNaN b = false := by
  obtain ⟨⟨-, hb⟩, -⟩ : (isNaN a = false ∧ isNaN b = false) ∧ rankOf a ≤ rankOf b := by simpa [fle] using h
  exact hb

theorem sin32_posZero : sin32 posZero = posZero := if_pos rfl

/-- (SIN-RANGE): either the free value passes the cut's test, or the result is `+0.0`. -/
theorem sin32_range (x : F32) : fle negOne (sin32 x) = true ∧ fle (sin32 x) one = true := by
  have hzero : fle negOne posZero = true ∧ fle posZero one = true := by decide
  unfold sin32
  split
  · exact hzero
  · split
    next _ hcut => exact Bool.and_eq_true_iff.mp hcut
    next => exact hzero

/-- Settles O18: the cut in `sin32` keeps the range, and a value in the range is no NaN. -/
theorem sineHasItsNamedProperties : Obligations.SineHasItsNamedProperties := by
  refine ⟨fun x => ?_, sin32_posZero⟩
  obtain ⟨hlo, hhi⟩ := sin32_range x
  exact ⟨hlo, hhi, not_nan_of_fle hlo⟩

end Sys2Proof.Proofs
end

section
/-! PROOFS. The invariant of R23 to R26 along every run (spec/10_state.md).  The ranges of one voice and of the patch are
bounds on bit patterns (`VoiceOk`, `PatchOk`); each operation on a voice keeps them, each command keeps the invariant, and
so does each host input. -/

namespace Sys2Proof.Proofs

open Sys2Proof.Machine Sys2Proof.Laws

/-! ### The ranges as bounds on patterns -/

theorem playable_iff (x : F32) : playable x = true ↔ 0 < x.toNat ∧ x.toNat < infMag := by
  unfold playable
  rw [Bool.and_eq_true, pos_iff]
  constructor
  · rintro ⟨hfin, hpos, hle⟩
    rw [isFinite_nonneg hle] at hfin
    exact ⟨hpos, of_decide_eq_true hfin⟩
  · rintro ⟨hpos, hlt⟩
    exact ⟨isFinite_of_lt hlt, hpos, hlt.le⟩

theorem durationLegal_iff (d : F32) : DurationLegal d ↔ d.toNat ≤ infMag := by
  refine ⟨duration_le, fun h => ?_⟩
  rcases Nat.eq_zero_or_pos d.toNat with h0 | h0
  · exact .inl (BitVec.eq_of_toNat_eq h0)
  · exact .inr ((pos_iff d).mpr ⟨h0, h⟩)

/-- The legal patch values of R25. -/
structure PatchOk (p : Patch) : Prop where
  attack : p.attack.toNat ≤ infMag
  decay : p.decay.toNat ≤ infMag
  sustain : p.sustain.toNat ≤ one.toNat
  release : p.release.toNat ≤ infMag
  glide : p.glide.toNat ≤ infMag

theorem patchOk_iff (p : Patch) : PatchOk p ↔ PatchLegal p := by
  simp only [PatchLegal, durationLegal_iff, UpTo, range_iff (show one.toNat ≤ infMag by decide)]
  exact ⟨fun ⟨ha, hd, hs, hr, hg⟩ => ⟨ha, hd, hs, hr, hg⟩, fun ⟨ha, hd, hs, hr, hg⟩ => ⟨ha, hd, hs, hr, hg⟩⟩

theorem patchOk_reset : PatchOk Patch.reset := ⟨by decide, by decide, by decide, by decide, by decide⟩

/-- The value and counter invariants of one voice (R23, R24). -/
structure VoiceOk (c : Config) (v : Voice) : Prop where
  phase : v.phase.toNat < one.toNat
  oscFreq : v.oscFreq.toNat ≤ (nyq c).toNat
  start : v.start.toNat ≤ (nyq c).toNat
  endFreq : v.endFreq = posZero ∨ playable v.endFreq = true
  target : v.active = true → playable v.endFreq = true
  relAmp : v.relAmp.toNat ≤ one.toNat
  rtgAmp : v.rtgAmp.toNat ≤ one.toNat
  released : v.rel = true → v.nRel.toNat ≤ v.n.toNat
  held : v.rel = false → v.nRel = 0#32

theorem voiceOk_iff {c : Config} (hc : ConfigWf c) (v : Voice) :
    VoiceOk c v ↔ VoiceValues c v ∧ VoiceCounters v := by
  have hone : one.toNat ≤ infMag := by decide
  simp only [VoiceValues, VoiceCounters, PhaseLegal, UpTo, range_lt_iff hone, range_iff hone,
    range_iff (nyq_lt_inf hc).le]
  exact ⟨fun ⟨hp, ho, hs, he, ht, hr, hg, hn, hn'⟩ => ⟨⟨hp, ho, hs, he, ht, hr, hg⟩, hn, hn'⟩,
    fun ⟨⟨hp, ho, hs, he, ht, hr, hg⟩, hn, hn'⟩ => ⟨hp, ho, hs, he, ht, hr, hg, hn, hn'⟩⟩

theorem inv_iff (s : State) :
    Inv s ↔ ConfigWf s.cfg ∧ s.voices.length = s.cfg.nvoices ∧ (∀ v ∈ s.voices, VoiceOk s.cfg v) ∧
      PatchOk s.patch ∧ statusReserved s.status = 0#30 := by
  constructor
  · rintro ⟨hc, hpool, hval, hcnt, hp, hst⟩
    exact ⟨hc, hpool, fun v hv => (voiceOk_iff hc v).mpr ⟨hval v hv, hcnt v hv⟩, (patchOk_iff _).mpr hp, hst⟩
  · rintro ⟨hc, hpool, hvs, hp, hst⟩
    exact ⟨hc, hpool, fun v hv => ((voiceOk_iff hc v).mp (hvs v hv)).1,
      fun v hv => ((voiceOk_iff hc v).mp (hvs v hv)).2, (patchOk_iff _).mp hp, hst⟩

theorem VoiceOk.endFreq_lt_inf {c : Config} {v : Voice} (hv : VoiceOk c v) : v.endFreq.toNat < infMag := by
  rcases hv.endFreq with h | h
  · rw [h]; decide
  · exact ((playable_iff _).mp h).2

/-! ### Operators on non-negative values -/

theorem fsub_le_left {a b : F32} (ha : a.toNat < infMag) (hb : b.toNat ≤ a.toNat) :
    (fsub a b).toNat ≤ a.toNat := by
  rw [fsub_nonneg ha hb]
  exact roundMag_le (by omega) ha.le (by rw [Nat.mul_one]; exact Nat.sub_le _ _)

theorem fadd_inf_right {a b : F32} (ha : a.toNat < infMag) (hb : b.toNat = infMag) : fadd a b = b := by
  have hfin := isFinite_of_lt ha
  have hinf : isInf b = true := by unfold isInf; rw [magOf_nonneg hb.le, hb]; exact decide_eq_true rfl
  unfold fadd
  simp [finite_not_nan hfin, isNaN_nonneg hb.le, finite_not_inf hfin, hinf]

/-- The difference of two non-negative finite values never overflows. -/
theorem isFinite_fsub_of_nonneg {a b : F32} (ha : a.toNat < infMag) (hb : b.toNat < infMag) :
    isFinite (fsub a b) = true := by
  have hua : unitsOfMag a.toNat ≤ unitsOfMag (max a.toNat b.toNat) := unitsOfMag_le_iff.mpr (le_max_left _ _)
  have hub : unitsOfMag b.toNat ≤ unitsOfMag (max a.toNat b.toNat) := unitsOfMag_le_iff.mpr (le_max_right _ _)
  have hmax : max a.toNat b.toNat < infMag := max_lt ha hb
  unfold fsub
  rw [fadd_finite (isFinite_of_lt ha) (by rw [isFinite_fneg]; exact isFinite_of_lt hb), unitsOf_fneg,
    unitsOf_nonneg ha.le, unitsOf_nonneg hb.le]
  split_ifs
  · decide
  · decide
  · unfold isFinite
    rw [magOf_pack _ (roundMag_lt _ _), decide_eq_true_eq]
    exact (roundMag_le one_pos hmax.le (by omega)).trans_lt hmax

/-- A sum rounded to below `t` is exactly at most `t`. -/
theorem units_add_le_of_fadd_lt {a b t : F32} (ha : a.toNat < infMag) (hb : b.toNat < infMag)
    (ht : t.toNat < infMag) (h : (fadd a b).toNat < t.toNat) :
    unitsOfMag a.toNat + unitsOfMag b.toNat ≤ unitsOfMag t.toNat := by
  by_contra hlt
  rw [fadd_nonneg ha hb] at h
  exact absurd (le_roundMag one_pos ht.le (by omega)) (not_le.mpr h)

/-- Past `RT +f d` the time since `RT` is at least `d`, roundings included. -/
theorem le_fsub_rt_of_past {t d : F32} (ht : t.toNat < infMag) (hd : d.toNat ≤ infMag)
    (h : fle t (fadd rt d) = false) : rt.toNat ≤ t.toNat ∧ d.toNat ≤ (fsub t rt).toNat := by
  have hrt : rt.toNat < infMag := by decide
  rcases hd.lt_or_eq with hlt | hinf
  · rw [fle_nonneg ht.le (by rw [fadd_nonneg hrt hlt]; exact roundMag_le_inf _ _), decide_eq_false_iff_not,
      not_le] at h
    have hsum := units_add_le_of_fadd_lt hrt hlt ht h
    have hle : rt.toNat ≤ t.toNat := unitsOfMag_le_iff.mp (by omega)
    refine ⟨hle, ?_⟩
    rw [fsub_nonneg ht hle]
    exact le_roundMag one_pos hd (by omega)
  · rw [fadd_inf_right hrt hinf, fle_nonneg ht.le hd, hinf, decide_eq_false_iff_not] at h
    exact absurd ht.le h

/-! ### The amplitude stays in the unit range (R135) -/

section Amplitude

variable {c : Config} {p : Patch} {v : Voice}

theorem ampRelease_le (hc : ConfigWf c) (hp : PatchOk p) (hv : VoiceOk c v) :
    (ampRelease c p v).toNat ≤ one.toNat :=
  have hfactor := fsub_one_le (ratio_le_one (tOf_lt_inf hc (v.n - v.nRel)) hp.release)
  (fmul_le_left (hv.relAmp.trans_lt (by decide)) hfactor).trans hv.relAmp

theorem ampFade_le (hv : VoiceOk c v) {t : F32} (ht : t.toNat < infMag) : (ampFade v t).toNat ≤ one.toNat :=
  have hfactor := fsub_one_le (clamp01_le (fdiv_nonneg_le_inf ht (b := rt) (by decide) (by decide)))
  (fmul_le_left (hv.rtgAmp.trans_lt (by decide)) hfactor).trans hv.rtgAmp

theorem ampAttack_le (hp : PatchOk p) {t : F32} (ht : t.toNat < infMag) (h : fle t rt = false) :
    (ampAttack p t).toNat ≤ one.toNat := by
  rw [fle_nonneg ht.le (by decide), decide_eq_false_iff_not, not_le] at h
  exact ratio_le_one ((fsub_le_left ht h.le).trans_lt ht) hp.attack

theorem ampDecay_le (hp : PatchOk p) {t : F32} (ht : t.toNat < infMag) (h : fle t (attackEnd p) = false) :
    (ampDecay p t).toNat ≤ one.toNat := by
  obtain ⟨hrt, hattack⟩ := le_fsub_rt_of_past ht hp.attack h
  have hsince : (fsub t rt).toNat < infMag := (fsub_le_left ht hrt).trans_lt ht
  have hratio := ratio_le_one ((fsub_le_left hsince hattack).trans_lt hsince) hp.decay
  have hdrop := fsub_one_le hp.sustain
  exact fsub_one_le ((fmul_le_left (hdrop.trans_lt (by decide)) hratio).trans hdrop)

theorem ampAt_le_one (hc : ConfigWf c) (hp : PatchOk p) (hv : VoiceOk c v) :
    (ampAt c p v).toNat ≤ one.toNat := by
  have ht := tOf_lt_inf hc v.n
  unfold ampAt
  dsimp only
  split_ifs with hrel hfade hattack hdecay
  · exact ampRelease_le hc hp hv
  · exact ampFade_le hv ht
  · exact ampAttack_le hp ht (Bool.eq_false_of_not_eq_true hfade)
  · exact ampDecay_le hp ht (Bool.eq_false_of_not_eq_true hattack)
  · exact hp.sustain

/-- The amplitude a trigger captures is that of the voice before it: it does not depend on the glide (R132). -/
theorem voicePlay_rtgAmp (c : Config) (p : Patch) (x : F32) (v : Voice) :
    (voicePlay c p x v).rtgAmp = ampAt c p v := rfl

end Amplitude

/-! ### The frequency and the phase of a sample step -/

section SampleStep

variable {c : Config} {p : Patch} {v : Voice}

/-- The frequency the oscillator is given is no NaN and not `-0.0`, so its clamp is in range (R100, R312). -/
theorem instFreq_clampable (hc : ConfigWf c) (hp : PatchOk p) (hv : VoiceOk c v) :
    isNaN (instFreq c p v) = false ∧ instFreq c p v ≠ negZero := by
  have hstart : v.start.toNat < infMag := hv.start.trans_lt (nyq_lt_inf hc)
  have hdelta : isFinite (fsub v.endFreq v.start) = true := isFinite_fsub_of_nonneg hv.endFreq_lt_inf hstart
  have hratio : (rampRatio c p v).toNat ≤ one.toNat := ratio_le_one (tOf_lt_inf hc v.n) hp.glide
  have hratio_fin : isFinite (rampRatio c p v) = true := isFinite_of_lt (hratio.trans_lt (by decide))
  have hramp : isFinite (rampProcess c p v (fsub v.endFreq v.start)) = true := by
    unfold rampProcess
    rw [fmul_finite hdelta hratio_fin, bne_comm, Nat.mul_comm, ← fmul_finite hratio_fin hdelta]
    refine (fmul_mag_le ?_ hdelta).2
    rw [magOf_nonneg (hratio.trans (by decide))]
    exact hratio
  refine ⟨fadd_not_nan (finite_not_nan (isFinite_of_lt hstart)) hramp, fadd_ne_negZero (.inl ?_)⟩
  exact ((nonneg_iff _).mpr hstart.le).2

theorem units_half : unitsOfMag half.toNat = 2 ^ 148 := by decide

/-- The pattern `0x3FC00000` is 1.5. -/
theorem units_threeHalves : unitsOfMag 0x3FC00000 = 2 ^ 149 + 2 ^ 148 := by decide

/-- One sample advances the phase by at most one half: the frequency is at most half the rate (R102, R103). -/
theorem phaseIncrement_le_half (hc : ConfigWf c) {f : F32} (hf : f.toNat ≤ (nyq c).toNat) :
    (fdiv f (srf c)).toNat ≤ half.toNat := by
  have hsrf : 2 ^ 24 ≤ (srf c).toNat := (by decide : 2 ^ 24 ≤ one.toNat).trans (srf_range hc).1
  have hrate : 2 * unitsOfMag (nyq c).toNat = unitsOfMag (srf c).toNat := by
    rw [nyq_toNat hc]; exact unitsOfMag_half hsrf
  have hu : unitsOfMag f.toNat ≤ unitsOfMag (nyq c).toNat := unitsOfMag_le_iff.mpr hf
  rw [fdiv_nonneg (hf.trans_lt (nyq_lt_inf hc)) (srf_pos hc) (srf_lt_inf hc)]
  refine roundMag_le (unitsOfMag_pos (srf_pos hc)) (by decide) ?_
  rw [units_half]; omega

/-- The phase before the wrap is at most 1.5 (R103). -/
theorem phaseSum_le (hc : ConfigWf c) (hv : VoiceOk c v) :
    (fadd v.phase (fdiv v.oscFreq (srf c))).toNat ≤ 0x3FC00000 := by
  have hinc := phaseIncrement_le_half hc hv.oscFreq
  have hphase_units := unitsOfMag_le_iff.mpr hv.phase.le
  have hinc_units := unitsOfMag_le_iff.mpr hinc
  rw [units_one] at hphase_units
  rw [units_half] at hinc_units
  rw [fadd_nonneg (hv.phase.trans (by decide)) (hinc.trans_lt (by decide))]
  refine roundMag_le one_pos (by decide) ?_
  rw [units_threeHalves]; omega

/-- One subtraction brings a value up to 1.5 down to at most one half. -/
theorem fsub_one_le_half {ph : F32} (hlo : one.toNat ≤ ph.toNat) (hhi : ph.toNat ≤ 0x3FC00000) :
    (fsub ph one).toNat ≤ half.toNat := by
  have hunits := unitsOfMag_le_iff.mpr hhi
  rw [units_threeHalves] at hunits
  rw [fsub_nonneg (hhi.trans_lt (by decide)) hlo]
  refine roundMag_le one_pos (by decide) ?_
  rw [units_one, units_half]; omega

theorem nextPhase_lt_one (hc : ConfigWf c) (hv : VoiceOk c v) : (nextPhase c v).toNat < one.toNat := by
  have hsum := phaseSum_le hc hv
  unfold nextPhase
  simp only [fle_nonneg (show one.toNat ≤ infMag by decide) (hsum.trans (by decide)), decide_eq_true_eq]
  split_ifs with hwrap
  · exact (fsub_one_le_half hwrap hsum).trans_lt (by decide)
  · exact not_le.mp hwrap

/-! ### The operations on a voice -/

theorem voiceOk_reset (c : Config) : VoiceOk c Voice.reset where
  phase := by decide
  oscFreq := Nat.zero_le _
  start := Nat.zero_le _
  endFreq := .inl rfl
  target := nofun
  relAmp := by decide
  rtgAmp := by decide
  released := nofun
  held _ := rfl

theorem VoiceOk.voicePlay (hv : VoiceOk c v) (hc : ConfigWf c) (hp : PatchOk p) {x : F32}
    (hx : playable x = true) : VoiceOk c (voicePlay c p x v) where
  phase := hv.phase
  oscFreq := hv.oscFreq
  start := hv.oscFreq
  endFreq := .inr hx
  target _ := hx
  relAmp := Nat.zero_le _
  rtgAmp := by rw [voicePlay_rtgAmp]; exact ampAt_le_one hc hp hv
  released := nofun
  held _ := rfl

theorem VoiceOk.voiceStop (hv : VoiceOk c v) (hc : ConfigWf c) (hp : PatchOk p) : VoiceOk c (voiceStop c p v) := by
  unfold Machine.voiceStop envRelease
  split_ifs
  · exact hv
  · exact { hv with relAmp := ampAt_le_one hc hp hv, released := fun _ => le_rfl, held := nofun }

theorem VoiceOk.oscSetFreq (hv : VoiceOk c v) (hc : ConfigWf c) {f : F32} (hnan : isNaN f = false)
    (hzero : f ≠ negZero) : VoiceOk c (oscSetFreq c f v) :=
  { hv with oscFreq := clampF_le (nyq_lt_inf hc).le hnan hzero }

theorem VoiceOk.oscStep (hv : VoiceOk c v) (hc : ConfigWf c) (w : Waveform) : VoiceOk c (oscStep c w v).2 :=
  { hv with phase := nextPhase_lt_one hc hv }

theorem VoiceOk.envAdvance (hv : VoiceOk c v) : VoiceOk c (envAdvance v) :=
  { hv with
    released := fun h => (hv.released h).trans (by
      have := v.n.isLt
      change v.n.toNat ≤ (satInc v.n).toNat
      rw [satInc_toNat]; omega) }

theorem VoiceOk.deactivateIfDone (hv : VoiceOk c v) : VoiceOk c (deactivateIfDone c p v) := by
  unfold Machine.deactivateIfDone
  split_ifs
  · exact { hv with target := nofun }
  · exact hv

theorem VoiceOk.voiceStep (hv : VoiceOk c v) (hc : ConfigWf c) (hp : PatchOk p) (w : Waveform) :
    VoiceOk c (voiceStep c p w v).2 := by
  obtain ⟨hnan, hzero⟩ := instFreq_clampable hc hp hv
  unfold Machine.voiceStep
  split_ifs
  · exact ((hv.oscSetFreq hc hnan hzero).oscStep hc w).envAdvance.deactivateIfDone
  · exact hv

end SampleStep

/-! ### What sanitation leaves is legal (R220, R221) -/

theorem sanitizeDuration_legal {x y : F32} (h : (sanitizeDuration x).1 = some y) : y.toNat ≤ infMag := by
  rw [← durationLegal_iff]
  unfold sanitizeDuration at h
  split_ifs at h with hnan hneg hzero <;> cases h
  · exact .inl rfl
  · exact .inl rfl
  · have hn : isNaN x = false := by simpa using hnan
    rw [flt_eq_rank hn (by decide)] at hneg
    rw [feq_eq_rank hn (by decide)] at hzero
    rw [decide_eq_true_eq] at hneg hzero
    refine .inr ?_
    rw [flt_eq_rank (by decide) hn, decide_eq_true_eq]
    omega

theorem sanitizeLevel_legal {x y : F32} (h : (sanitizeLevel x).1 = some y) : y.toNat ≤ one.toNat := by
  unfold sanitizeLevel at h
  split_ifs at h with hnan hneg hhigh hzero <;> cases h
  · decide
  · decide
  · decide
  · have hn : isNaN x = false := by simpa using hnan
    rw [← range_iff (by decide), fle_eq_rank (by decide) hn, fle_eq_rank hn (by decide)]
    rw [flt_eq_rank hn (by decide)] at hneg
    rw [flt_eq_rank (by decide) hn] at hhigh
    rw [decide_eq_true_eq] at hneg hhigh
    refine ⟨decide_eq_true (not_lt.mp hneg), decide_eq_true (not_lt.mp hhigh), ?_⟩
    rintro rfl
    exact hzero (by decide)

/-! ### The operations on the state -/

section StateOperations

variable {s : State}

theorem inv_resetOf {c : Config} (hc : ConfigWf c) : Inv (State.resetOf c) := by
  refine (inv_iff _).mpr ⟨hc, List.length_replicate, fun v hv => ?_, patchOk_reset, ?_⟩
  · rw [List.eq_of_mem_replicate hv]; exact voiceOk_reset c
  · rw [resetOf_status]; decide

/-- The invariant does not speak of the inputs to come. -/
theorem inv_withInput (h : Inv s) (hs : List HostInput) : Inv { s with input := hs } :=
  ⟨h.cfg, h.pool, h.values, h.counters, h.patch, h.reserved⟩

theorem inv_emit (h : Inv s) (w : Word32) : Inv (emit w s) :=
  ⟨h.cfg, h.pool, h.values, h.counters, h.patch, h.reserved⟩

theorem inv_takeResponse (h : Inv s) : Inv (takeResponse s) :=
  ⟨h.cfg, h.pool, h.values, h.counters, h.patch, h.reserved⟩

theorem inv_assertReset (h : Inv s) : Inv (assertReset s) :=
  inv_withInput (inv_resetOf h.cfg) s.input

theorem inv_raiseEvent (h : Inv s) (e : ErrorEvent) : Inv (raiseEvent e s) := by
  refine ⟨h.cfg, h.pool, h.values, h.counters, h.patch, ?_⟩
  rw [raiseEvent_status, statusReserved_or, h.reserved]
  cases e <;> decide

theorem inv_readVoice (h : Inv s) (idx : Nat) (word : State → Word32) : Inv (readVoice idx word s) := by
  rcases readVoice_cases idx word s with he | he <;> rw [he]
  · exact inv_emit h _
  · exact inv_raiseEvent h _

/-- A voice file of the same size whose voices are in range may take the old one's place. -/
theorem inv_withVoices (h : Inv s) {vs : List Voice} (hlen : vs.length = s.voices.length)
    (hvs : ∀ v ∈ vs, VoiceOk s.cfg v) : Inv { s with voices := vs } := by
  obtain ⟨hc, hpool, -, hp, hst⟩ := (inv_iff s).mp h
  exact (inv_iff _).mpr ⟨hc, hlen.trans hpool, hvs, hp, hst⟩

theorem inv_updateVoice (h : Inv s) (i : Nat) {f : Voice → Voice}
    (hf : ∀ v, VoiceOk s.cfg v → VoiceOk s.cfg (f v)) : Inv (updateVoice i f s) := by
  obtain ⟨-, -, hvs, -, -⟩ := (inv_iff s).mp h
  refine inv_withVoices h (List.length_modify _ _ _) fun w hw => ?_
  obtain ⟨j, hj⟩ := List.mem_iff_getElem?.mp hw
  rw [List.getElem?_modify, Option.map_eq_map, Option.map_eq_some_iff] at hj
  obtain ⟨v, hv, rfl⟩ := hj
  have hok := hvs v (List.mem_of_getElem? hv)
  split_ifs
  · exact hf v hok
  · exact hok

theorem inv_setPatch (h : Inv s) {write : F32 → Patch → Patch} {r : Option F32 × Bool}
    (hwrite : ∀ y, r.1 = some y → PatchOk s.patch → PatchOk (write y s.patch)) : Inv (setPatch write r s) := by
  obtain ⟨hc, hpool, hvs, hp, hst⟩ := (inv_iff s).mp h
  rw [setPatch_eq]
  refine (inv_iff _).mpr ⟨hc, hpool, hvs, ?_, ?_⟩
  · obtain ⟨_ | y, cv⟩ := r
    · exact hp
    · exact hwrite y rfl hp
  · dsimp only
    split_ifs
    · rw [statusReserved_or, hst]; decide
    · exact hst

/-! ### The commands -/

theorem execPlay_inv (h : Inv s) (x : F32) : ∃ t, execPlay x s = .next t ∧ Inv t := by
  obtain ⟨hc, -, -, hp, -⟩ := (inv_iff s).mp h
  unfold execPlay
  split_ifs with hx
  · exact ⟨_, rfl, inv_updateVoice h _ fun v hv => hv.voicePlay hc hp hx⟩
  · exact ⟨_, rfl, inv_raiseEvent h _⟩

theorem execStop_inv (h : Inv s) (x : F32) : ∃ t, execStop x s = .next t ∧ Inv t := by
  obtain ⟨hc, -, hvs, hp, -⟩ := (inv_iff s).mp h
  refine ⟨_, rfl, inv_withVoices h (List.length_map _) fun w hw => ?_⟩
  obtain ⟨v, hv, rfl⟩ := List.mem_map.mp hw
  split_ifs
  · exact (hvs v hv).voiceStop hc hp
  · exact hvs v hv

theorem execSample_inv (h : Inv s) : ∃ t, execSample s = .next t ∧ Inv t := by
  obtain ⟨hc, -, hvs, hp, -⟩ := (inv_iff s).mp h
  refine ⟨_, rfl, inv_emit (inv_withVoices h (sampleFrom_length _ _ _ _ _) fun w hw => ?_) _⟩
  obtain ⟨j, hj⟩ := List.mem_iff_getElem?.mp hw
  rw [sampleFrom_get, Option.map_eq_some_iff] at hj
  obtain ⟨v, hv, rfl⟩ := hj
  exact (hvs v (List.mem_of_getElem? hv)).voiceStep hc hp _

/-- Every command gives a next state, and keeps the invariant. -/
theorem exec_inv (h : Inv s) (i : Instr) : ∃ t, exec i s = .next t ∧ Inv t := by
  cases i with
  | play x => exact execPlay_inv h x
  | stop x => exact execStop_inv h x
  | sample => exact execSample_inv h
  | setAttack x => exact ⟨_, rfl, inv_setPatch h fun _ hy hp => { hp with attack := sanitizeDuration_legal hy }⟩
  | setDecay x => exact ⟨_, rfl, inv_setPatch h fun _ hy hp => { hp with decay := sanitizeDuration_legal hy }⟩
  | setSustain x => exact ⟨_, rfl, inv_setPatch h fun _ hy hp => { hp with sustain := sanitizeLevel_legal hy }⟩
  | setRelease x => exact ⟨_, rfl, inv_setPatch h fun _ hy hp => { hp with release := sanitizeDuration_legal hy }⟩
  | setGlide x => exact ⟨_, rfl, inv_setPatch h fun _ hy hp => { hp with glide := sanitizeDuration_legal hy }⟩
  | readRegStatus | readRegAttack | readRegDecay | readRegSustain | readRegRelease | readRegGlide | readRegGain
  | readRegNvoices | readRegSr => exact ⟨_, rfl, inv_emit h _⟩
  | readVoiceActive _ | readVoicePhase _ | readVoiceOscFreq _ | readVoiceStart _ | readVoiceEnd _ | readVoiceN _
  | readVoiceRel _ | readVoiceNRel _ | readVoiceRelAmp _ | readVoiceRtgAmp _ | readVoiceWave _ | readVoiceState _
  | readVoiceAmp _ => exact ⟨_, rfl, inv_readVoice h _ _⟩

/-! ### Steps and runs -/

theorem runWord_inv (h : Inv s) (w : CmdWord) : ∃ t, runWord w s = .next t ∧ Inv t := by
  unfold runWord
  split
  · exact exec_inv h _
  · exact ⟨_, rfl, inv_raiseEvent h _⟩

/-- Every step gives a next state, and keeps the invariant. -/
theorem step_inv (h : Inv s) : ∃ t, step s = .next t ∧ Inv t := by
  unfold step
  split
  · exact ⟨s, rfl, h⟩
  · exact runWord_inv (inv_withInput h _) _
  · exact ⟨_, rfl, inv_takeResponse (inv_withInput h _)⟩
  · exact ⟨_, rfl, inv_assertReset (inv_withInput h _)⟩

theorem runInputs_cons {a : HostInput} {t : State} (hstep : step { s with input := [a] } = .next t)
    (hs : List HostInput) : runInputs s (a :: hs) = runInputs t hs := by
  rw [runInputs, hstep]

theorem runs_inv (h : Inv s) (hs : List HostInput) : ∃ t, Runs s hs t ∧ Inv t := by
  induction hs generalizing s with
  | nil => exact ⟨s, rfl, h⟩
  | cons a hs ih =>
    obtain ⟨u, hstep, hu⟩ := step_inv (inv_withInput h [a])
    obtain ⟨t, hrun, ht⟩ := ih hu
    exact ⟨t, (runInputs_cons hstep hs).trans hrun, ht⟩

end StateOperations

/-- Settles O57: the reset state meets the invariant, and each host input in turn gives a next state that keeps it. -/
theorem everyRunKeepsTheInvariant : Obligations.EveryRunKeepsTheInvariant :=
  fun _ hs hc => runs_inv (inv_resetOf hc) hs

end Sys2Proof.Proofs
end

section
/-! PROOFS. The oscillator's waveforms (spec/40_oscillator.md R101).  Doubling a phase is exact, so SAW rounds once, and that
rounding is monotone on signed values: the bounds of the exact value `2p - 1`, themselves representable, bound the sample. -/

namespace Sys2Proof.Proofs

open Sys2Proof.Machine Sys2Proof.Laws

/-! ### A sum stays within representable bounds of its exact value -/

/-- The rank of the binary32 nearest an integer number of units, of either sign. -/
def roundedRank (u : Int) : Int := u.sign * roundMag u.natAbs 1

theorem roundedRank_neg (u : Int) : roundedRank (-u) = -roundedRank u := by
  unfold roundedRank; rw [Int.sign_neg, Int.natAbs_neg, neg_mul]

theorem roundedRank_natCast (n : Nat) : roundedRank n = roundMag n 1 := by
  unfold roundedRank
  rcases Nat.eq_zero_or_pos n with rfl | hn
  · simp
  · rw [Int.sign_natCast_of_ne_zero hn.ne', one_mul, Int.natAbs_natCast]

theorem roundedRank_mono {u v : Int} (h : u ≤ v) : roundedRank u ≤ roundedRank v := by
  have hmono {m n : Nat} (hmn : m ≤ n) : (roundMag m 1 : Int) ≤ roundMag n 1 := by
    exact_mod_cast roundMag_mono one_pos one_pos (by omega)
  obtain ⟨m, rfl | rfl⟩ := u.eq_nat_or_neg <;> obtain ⟨n, rfl | rfl⟩ := v.eq_nat_or_neg <;>
    simp only [roundedRank_neg, roundedRank_natCast]
  · exact hmono (by omega)
  · obtain ⟨rfl, rfl⟩ : m = 0 ∧ n = 0 := by omega
    simp
  · omega
  · exact neg_le_neg (hmono (by omega))

theorem roundedRank_unitsOf {a : F32} (h : isFinite a = true) : roundedRank (unitsOf a) = rankOf a := by
  have hexact : roundMag (unitsOfMag (magOf a)) 1 = magOf a := by
    simpa using roundMag_exact one_pos ((isFinite_iff_magOf a).mp h).le
  unfold unitsOf rankOf
  split <;> simp only [roundedRank_neg, roundedRank_natCast, hexact]

theorem rankOf_pack (s : Bool) {m : Nat} (h : m < 2 ^ 31) :
    rankOf (pack s m) = if s then -(m : Int) else (m : Int) := by
  unfold rankOf; rw [signOf_pack s h, magOf_pack s h]

theorem rankOf_fadd {a b : F32} (ha : isFinite a = true) (hb : isFinite b = true) :
    rankOf (fadd a b) = roundedRank (unitsOf a + unitsOf b) := by
  rw [fadd_finite ha hb]
  generalize unitsOf a + unitsOf b = u
  rcases lt_trichotomy u 0 with hneg | rfl | hpos
  · rw [if_neg hneg.ne, rankOf_pack _ (roundMag_lt _ _), decide_eq_true hneg, roundedRank, Int.sign_eq_neg_one_of_neg hneg]
    simp
  · rw [if_pos rfl]
    split <;> decide
  · rw [if_neg hpos.ne', rankOf_pack _ (roundMag_lt _ _), decide_eq_false hpos.not_gt, roundedRank,
      Int.sign_eq_one_of_pos hpos]
    simp

theorem fadd_le_of_units_le {a b c : F32} (ha : isFinite a = true) (hb : isFinite b = true) (hc : isFinite c = true)
    (h : unitsOf a + unitsOf b ≤ unitsOf c) : fle (fadd a b) c = true := by
  rw [fle_eq_rank (fadd_not_nan (finite_not_nan ha) hb) (finite_not_nan hc), rankOf_fadd ha hb, ← roundedRank_unitsOf hc]
  exact decide_eq_true (roundedRank_mono h)

theorem le_fadd_of_le_units {a b c : F32} (ha : isFinite a = true) (hb : isFinite b = true) (hc : isFinite c = true)
    (h : unitsOf c ≤ unitsOf a + unitsOf b) : fle c (fadd a b) = true := by
  rw [fle_eq_rank (finite_not_nan hc) (fadd_not_nan (finite_not_nan ha) hb), rankOf_fadd ha hb, ← roundedRank_unitsOf hc]
  exact decide_eq_true (roundedRank_mono h)

/-! ### Doubling is exact -/

/-- Twice a value is representable: a subnormal's fraction doubles, any other number gains one in the exponent field. -/
theorem exists_double (m : Nat) : ∃ k, k ≤ m + 2 ^ 23 ∧ unitsOfMag k = 2 * unitsOfMag m := by
  rcases Nat.lt_or_ge m (2 ^ 23) with hsub | hnormal
  · refine ⟨2 * m, by omega, ?_⟩
    rw [unitsOfMag_small (by omega), unitsOfMag_small (by omega)]
  · refine ⟨m + 2 ^ 23, le_rfl, ?_⟩
    rw [← unitsOfMag_half (by omega : 2 ^ 24 ≤ m + 2 ^ 23), Nat.add_sub_cancel]

/-- Below infinity by one exponent, doubling is finite and exact. -/
theorem fmul_two_exact {p : F32} (hp : p.toNat + 2 ^ 23 < infMag) :
    isFinite (fmul two p) = true ∧ unitsOf (fmul two p) = 2 * unitsOf p := by
  have hp' : p.toNat < infMag := by omega
  obtain ⟨k, hk, hdouble⟩ := exists_double p.toNat
  have htwo : unitsOfMag two.toNat = 2 * 2 ^ 149 := by decide
  have hmul : (fmul two p).toNat = k := by
    rw [fmul_nonneg (by decide) hp', htwo,
      show 2 * 2 ^ 149 * unitsOfMag p.toNat = 2 * unitsOfMag p.toNat * 2 ^ 149 by ring, ← hdouble]
    exact roundMag_exact (by positivity) (by omega)
  have hlt : (fmul two p).toNat < infMag := by omega
  refine ⟨isFinite_of_lt hlt, ?_⟩
  rw [unitsOf_nonneg hlt.le, unitsOf_nonneg hp'.le, hmul, hdouble]
  push_cast; rfl

/-! ### The samples of a legal phase -/

theorem phaseLegal_iff (p : F32) : PhaseLegal p ↔ p.toNat < one.toNat := range_lt_iff (by decide) p

section LegalPhase

variable {p : F32} (hp : p.toNat < one.toNat)
include hp

theorem double_phase : isFinite (fmul two p) = true ∧ unitsOf (fmul two p) = 2 * unitsOf p :=
  fmul_two_exact (by rw [one_toNat] at hp; unfold infMag; omega)

/-- A legal phase is at most the last binary32 below 1.0, `1 - 2^-24`. -/
theorem phase_units : 0 ≤ unitsOf p ∧ unitsOf p ≤ 2 ^ 149 - 2 ^ 125 := by
  have hlast : unitsOfMag 0x3F7FFFFF = 2 ^ 149 - 2 ^ 125 := by decide
  have hle : unitsOfMag p.toNat ≤ unitsOfMag 0x3F7FFFFF :=
    unitsOfMag_le_iff.mpr (by rw [one_toNat] at hp; omega)
  rw [unitsOf_nonneg (hp.trans (by decide)).le]
  omega

/-- The exact value `2p - 1` of a saw sample lies between `-1.0` and `1.0 - 2^-23`. -/
theorem saw_range : fle negOne (waveValue .saw p) = true ∧ fle (waveValue .saw p) 0x3F7FFFFE#32 = true := by
  obtain ⟨hfin, hdouble⟩ := double_phase hp
  obtain ⟨hlo, hhi⟩ := phase_units hp
  have hone : unitsOf (fneg one) = -2 ^ 149 := by decide
  have hmin : unitsOf negOne = -2 ^ 149 := by decide
  have hmax : unitsOf 0x3F7FFFFE#32 = 2 ^ 149 - 2 ^ 126 := by decide
  refine ⟨le_fadd_of_le_units hfin (by decide) (by decide) ?_, fadd_le_of_units_le hfin (by decide) (by decide) ?_⟩
  · rw [hmin, hdouble, hone]; omega
  · rw [hmax, hdouble, hone]; omega

theorem square_eq : waveValue .square p = if p.toNat < half.toNat then one else negOne := by
  unfold waveValue
  simp only [flt_nonneg (hp.trans (by decide)).le (show half.toNat ≤ infMag by decide), decide_eq_true_eq]

theorem waveValue_range (w : Waveform) : fle negOne (waveValue w p) = true ∧ fle (waveValue w p) one = true := by
  cases w with
  | sine => exact sin32_range _
  | saw =>
    obtain ⟨hlo, hhi⟩ := saw_range hp
    exact ⟨hlo, fle_trans hhi (by decide)⟩
  | square =>
    rw [square_eq hp]
    split <;> decide

end LegalPhase

/-- The product with `TWO_PI` is `+0.0`, where (SIN-ZERO) applies. -/
theorem waveValue_sine_zero : waveValue .sine posZero = posZero := by
  have hprod : fmul twoPi posZero = posZero := by decide
  unfold waveValue
  simp only [hprod, sin32_posZero]

/-- Settles O21: a legal phase is a pattern below that of 1.0, and each clause is a fact about such a pattern. -/
theorem waveformsStayInRange : Obligations.WaveformsStayInRange := by
  intro p hlegal
  have hp := (phaseLegal_iff p).mp hlegal
  exact ⟨rfl, rfl, square_eq hp, waveValue_range hp, (double_phase hp).2, (saw_range hp).2, by decide, by decide,
    waveValue_sine_zero⟩

end Sys2Proof.Proofs
end

section
/-! PROOFS. Rounding to nearest in the terms of the statements (spec/00_scope.md R11, R12).  `RoundsTo` compares signed values; the
rounding laws speak of magnitudes.  A value of either sign is at least as far off as its magnitude is. -/

namespace Sys2Proof.Proofs

open Sys2Proof.Machine Sys2Proof.Laws

/-- A magnitude with a sign. -/
def withSign (s : Bool) (n : Nat) : Int := if s then -(n : Int) else n

theorem withSign_false (n : Nat) : withSign false n = n := rfl

theorem withSign_true (n : Nat) : withSign true n = -(n : Int) := rfl

theorem abs_withSign (s : Bool) (n : Nat) : |withSign s n| = n := by
  cases s <;> simp [withSign]

theorem unitsOf_eq_withSign (a : F32) : unitsOf a = withSign (signOf a) (unitsOfMag (magOf a)) := rfl

theorem unitsOf_pack_eq_withSign (s : Bool) {m : Nat} (h : m < 2 ^ 31) :
    unitsOf (pack s m) = withSign s (unitsOfMag m) := unitsOf_pack s h

theorem abs_unitsOf (a : F32) : |unitsOf a| = unitsOfMag (magOf a) := by
  rw [unitsOf_eq_withSign, abs_withSign]

theorem pack_toNat_mod_two (s : Bool) {m : Nat} (h : m < 2 ^ 31) : (pack s m).toNat % 2 = m % 2 := by
  rw [pack_toNat s h]
  split <;> omega

/-- A number as far from a value as from its opposite is 0, or the value is. -/
theorem eq_zero_or_of_abs_sub_eq_abs_add {a b : Int} (h : |a - b| = |a + b|) : a = 0 ∨ b = 0 := by
  rcases abs_eq_abs.mp h with h | h <;> omega

/-- The magnitude of a value is at least as near to the magnitude of an exact value as the value is to the exact one. -/
theorem abs_sub_magnitude_le {num : Int} {n : Nat} (hn : |num| = n) (d : Nat) (c : F32) :
    |(n : Int) - unitsOfMag (magOf c) * d| ≤ |num - unitsOf c * d| := by
  have h := abs_abs_sub_abs_le num (unitsOf c * d)
  rwa [abs_mul, abs_unitsOf, hn, Nat.abs_cast] at h

/-! ### A sign and a rounded magnitude -/

section SignedMagnitude

variable (s : Bool) {n d : Nat}

/-- Exact value and rounded one have the same sign, so they are as far apart as their magnitudes. -/
theorem abs_sub_unitsOf_pack {m : Nat} (hm : m < 2 ^ 31) :
    |withSign s n - unitsOf (pack s m) * d| = |(n : Int) - unitsOfMag m * d| := by
  rw [unitsOf_pack_eq_withSign s hm]
  cases s
  · rfl
  · rw [withSign_true, withSign_true, neg_mul, neg_sub_neg, abs_sub_comm]

/-- The opposite of a rounded value is as near as it only when the exact value is 0, or the rounded one. -/
theorem eq_zero_of_opposite_as_near (hd : 0 < d) {c : F32} (hmag : magOf c = roundMag n d)
    (hne : unitsOf c ≠ unitsOf (pack s (roundMag n d)))
    (heq : |withSign s n - unitsOf (pack s (roundMag n d)) * d| = |withSign s n - unitsOf c * d|) : n = 0 := by
  have hopp : unitsOf c = -unitsOf (pack s (roundMag n d)) := by
    refine (abs_eq_abs.mp ?_).resolve_left hne
    rw [abs_unitsOf, abs_unitsOf, magOf_pack s (roundMag_lt n d), hmag]
  rw [hopp, neg_mul, sub_neg_eq_add] at heq
  rcases eq_zero_or_of_abs_sub_eq_abs_add heq with h0 | h0
  · have habs := abs_withSign s n
    rw [h0, abs_zero] at habs
    exact_mod_cast habs.symm
  · have hunits := (mul_eq_zero.mp h0).resolve_right (by omega)
    exact absurd (by rw [hopp, hunits, neg_zero]) hne

/-- Below overflow the rounded value is the nearest, and even when another one is as near. -/
theorem pack_roundMag_nearest (hd : 0 < d) (hfin : roundMag n d < infMag) (c : F32) :
    |withSign s n - unitsOf (pack s (roundMag n d)) * d| ≤ |withSign s n - unitsOf c * d| ∧
      (unitsOf c ≠ unitsOf (pack s (roundMag n d)) →
        |withSign s n - unitsOf (pack s (roundMag n d)) * d| = |withSign s n - unitsOf c * d| →
          (pack s (roundMag n d)).toNat % 2 = 0) := by
  have hdist := abs_sub_unitsOf_pack s (n := n) (d := d) (roundMag_lt n d)
  have hc := abs_sub_magnitude_le (abs_withSign s n) d c
  obtain ⟨hnear, htie⟩ := roundMag_nearest hd hfin (magOf c)
  refine ⟨hdist.trans_le (hnear.trans hc), fun hne heq => ?_⟩
  rw [pack_toNat_mod_two s (roundMag_lt n d)]
  by_cases hmag : magOf c = roundMag n d
  · rw [eq_zero_of_opposite_as_near s hd hmag hne heq, roundMag_zero]
  · exact htie hmag (le_antisymm hnear (hc.trans_eq (heq.symm.trans hdist)))

/-- A sign and a rounded magnitude make the rounded value. -/
theorem roundsTo_pack (hd : 0 < d) : RoundsTo (withSign s n) d (pack s (roundMag n d)) := by
  have hthreshold : roundMag n d < infMag ↔ 2 * (n : Int) < (2 ^ 25 - 1) * 2 ^ 253 * d := by
    rw [roundMag_lt_inf_iff hd]; omega
  unfold RoundsTo
  rw [abs_withSign]
  constructor
  · intro hbelow
    have hfin := hthreshold.mpr hbelow
    refine ⟨?_, fun c _ => pack_roundMag_nearest s hd hfin c⟩
    rw [isFinite_iff_magOf, magOf_pack s (roundMag_lt n d)]
    exact hfin
  · intro habove
    have hinf : roundMag n d = infMag :=
      (roundMag_le_inf n d).eq_of_not_lt fun hfin => not_le.mpr (hthreshold.mp hfin) habove
    rw [hinf]
    cases s
    · rw [withSign_false, if_neg (by omega)]; rfl
    · rw [withSign_true, if_pos (by omega)]; rfl

end SignedMagnitude

theorem roundsTo_toF32 (n : Nat) : RoundsTo ((n : Int) * 2 ^ 149) 1 (toF32 n) := by
  have h := roundsTo_pack false (n := n * 2 ^ 149) one_pos
  rw [withSign_false] at h
  exact_mod_cast h

theorem roundsTo_fdiv_of_nonneg {a b : F32} (ha : a.toNat < infMag) (hb0 : 0 < b.toNat) (hb : b.toNat < infMag) :
    RoundsTo (unitsOf a * 2 ^ 149) (unitsOf b).natAbs (fdiv a b) := by
  have hquot : fdiv a b = pack false (roundMag (unitsOfMag a.toNat * 2 ^ 149) (unitsOfMag b.toNat)) := by
    apply BitVec.eq_of_toNat_eq
    rw [fdiv_nonneg ha hb0 hb, pack_false_toNat (roundMag_lt _ _)]
  have h := roundsTo_pack false (n := unitsOfMag a.toNat * 2 ^ 149) (unitsOfMag_pos hb0)
  rw [withSign_false] at h
  push_cast at h
  rw [hquot, unitsOf_nonneg ha.le, unitsOf_nonneg hb.le, Int.natAbs_natCast]
  exact h

/-! ### Integers up to `2^24` are exact -/

/-- A power of two times a value is representable as far as the exponent field reaches. -/
theorem exists_scaled (m e : Nat) : ∃ k, k ≤ m + e * 2 ^ 23 ∧ unitsOfMag k = unitsOfMag m * 2 ^ e := by
  induction e with
  | zero => exact ⟨m, by simp⟩
  | succ e ih =>
    obtain ⟨k, hk, hscaled⟩ := ih
    obtain ⟨k', hk', hdouble⟩ := exists_double k
    exact ⟨k', by omega, by rw [hdouble, hscaled, pow_succ]; ring⟩

theorem unitsOfMag_of_le {n : Nat} (h : n ≤ 2 ^ 24) : unitsOfMag n = n := by
  rcases h.lt_or_eq with hlt | rfl
  · exact unitsOfMag_small hlt
  · decide

theorem unitsOf_toF32 {n : Nat} (h : n ≤ 2 ^ 24) : unitsOf (toF32 n) = (n : Int) * 2 ^ 149 := by
  obtain ⟨k, hk, hscaled⟩ := exists_scaled n 149
  rw [unitsOfMag_of_le h] at hscaled
  have hk_inf : k ≤ infMag := by unfold infMag; omega
  have hbits : (toF32 n).toNat = k := by
    rw [toF32_toNat, ← hscaled]
    simpa using roundMag_exact one_pos hk_inf
  rw [unitsOf_nonneg (by rw [hbits]; exact hk_inf), hbits, hscaled]
  push_cast; rfl

end Sys2Proof.Proofs
end

section
/-! PROOFS. The envelope (spec/41_envelope.md R120 to R135): elapsed time, the range of the amplitude, and what each branch gives. -/

namespace Sys2Proof.Proofs

open Sys2Proof.Machine Sys2Proof.Laws

/-! ### Elapsed time -/

theorem toF32_mono {m n : Nat} (h : m ≤ n) : (toF32 m).toNat ≤ (toF32 n).toNat := by
  rw [toF32_toNat, toF32_toNat]
  exact roundMag_mono one_pos one_pos (by omega)

section ElapsedTime

variable {c : Config} (hc : ConfigWf c)
include hc

theorem roundsTo_tOf (n : Word32) :
    RoundsTo (unitsOf (toF32 n.toNat) * 2 ^ 149) (unitsOf (srf c)).natAbs (tOf c n) :=
  roundsTo_fdiv_of_nonneg ((toF32_count_le n).trans_lt (by decide)) (srf_pos hc) (srf_lt_inf hc)

theorem tOf_toNat (n : Word32) :
    (tOf c n).toNat = roundMag (unitsOfMag (toF32 n.toNat).toNat * 2 ^ 149) (unitsOfMag (srf c).toNat) :=
  fdiv_nonneg ((toF32_count_le n).trans_lt (by decide)) (srf_pos hc) (srf_lt_inf hc)

/-- Both roundings, of the count and of the quotient, are monotone. -/
theorem tOf_mono {m n : Word32} (h : m.toNat ≤ n.toNat) : fle (tOf c m) (tOf c n) = true := by
  have hsrf := unitsOfMag_pos (srf_pos hc)
  have hcount := unitsOfMag_le_iff.mpr (toF32_mono h)
  rw [fle_nonneg (tOf_lt_inf hc m).le (tOf_lt_inf hc n).le, tOf_toNat hc, tOf_toNat hc]
  exact decide_eq_true (roundMag_mono hsrf hsrf (Nat.mul_le_mul_right _ (Nat.mul_le_mul_right _ hcount)))

end ElapsedTime

/-- Settles O19: count and quotient are each rounded once, and both roundings are monotone. -/
theorem elapsedTimeIsMonotone : Obligations.ElapsedTimeIsMonotone := by
  intro c hc
  exact ⟨fun n => ⟨roundsTo_toF32 n.toNat, roundsTo_tOf hc n⟩, fun _ => unitsOf_toF32, tOf_zero hc,
    fun _ _ => tOf_mono hc⟩

/-! ### The range of the amplitude -/

/-- Settles O40: the invariant's ranges bound every branch of the envelope by the pattern of 1.0. -/
theorem amplitudeIsInUnitRange : Obligations.AmplitudeIsInUnitRange := by
  intro s hs v hv
  obtain ⟨hc, -, hvs, hp, -⟩ := (inv_iff s).mp hs
  exact (range_iff (by decide) _).mpr (ampAt_le_one hc hp (hvs v hv))

/-! ### The branches -/

section Branches

variable {c : Config} {p : Patch} {v : Voice}

theorem fadd_rt_attack (p : Patch) : fadd rt p.attack = attackEnd p := rfl

theorem fadd_attackEnd_decay (p : Patch) : fadd (attackEnd p) p.decay = decayEnd p := rfl

theorem isDone_of_not_rel (h : v.rel = false) : isDone c p v = false := by simp [isDone, h]

theorem isDone_of_rel (h : v.rel = true) : isDone c p v = fle p.release (tRel c v) := by simp [isDone, h]

theorem release_branch (h : v.rel = true) :
    ampAt c p v = ampRelease c p v ∧ envState c p v = if fle p.release (tRel c v) then .done else .release := by
  simp [ampAt, envState, isDone_of_rel, h]

theorem fade_branch (hrel : v.rel = false) (hfade : fle (tOf c v.n) rt = true) :
    ampAt c p v = ampFade v (tOf c v.n) ∧ envState c p v = .retriggerFade := by
  simp [ampAt, envState, hrel, hfade]

theorem attack_branch (hrel : v.rel = false) (hfade : fle (tOf c v.n) rt = false)
    (hattack : fle (tOf c v.n) (attackEnd p) = true) :
    ampAt c p v = ampAttack p (tOf c v.n) ∧ envState c p v = .attack := by
  simp [ampAt, envState, fadd_rt_attack, hrel, hfade, hattack]

theorem decay_branch (hrel : v.rel = false) (hfade : fle (tOf c v.n) rt = false)
    (hattack : fle (tOf c v.n) (attackEnd p) = false) (hdecay : fle (tOf c v.n) (decayEnd p) = true) :
    ampAt c p v = ampDecay p (tOf c v.n) ∧ envState c p v = .decay := by
  simp [ampAt, envState, fadd_rt_attack, fadd_attackEnd_decay, hrel, hfade, hattack, hdecay]

theorem sustain_branch (hrel : v.rel = false) (hfade : fle (tOf c v.n) rt = false)
    (hattack : fle (tOf c v.n) (attackEnd p) = false) (hdecay : fle (tOf c v.n) (decayEnd p) = false) :
    ampAt c p v = p.sustain ∧ envState c p v = .sustain := by
  simp [ampAt, envState, fadd_rt_attack, fadd_attackEnd_decay, hrel, hfade, hattack, hdecay]

end Branches

/-- Settles O41: one lemma for each branch; the codes are those of the states' names. -/
theorem envelopeBranchesGiveAmplitudeAndState : Obligations.EnvelopeBranchesGiveAmplitudeAndState := by
  rintro c p v t tr eA eD rfl rfl rfl rfl
  rw [← rt_bits, ← one_bits]
  constructor
  · intro hrel
    obtain ⟨hamp, hstate⟩ := release_branch (c := c) (p := p) hrel
    refine ⟨hamp, isDone_of_rel hrel, ?_⟩
    rw [hstate]
    exact apply_ite EnvState.code _ _ _
  · intro hrel
    refine ⟨isDone_of_not_rel hrel, fun hfade => ?_, fun hfade hattack => ?_, fun hfade hattack hdecay => ?_,
      fun hfade hattack hdecay => ?_⟩
    · exact (fade_branch hrel hfade).imp_right (congrArg EnvState.code)
    · exact (attack_branch hrel hfade hattack).imp_right (congrArg EnvState.code)
    · exact (decay_branch hrel hfade hattack hdecay).imp_right (congrArg EnvState.code)
    · exact (sustain_branch hrel hfade hattack hdecay).imp_right (congrArg EnvState.code)

end Sys2Proof.Proofs
end

section
/-! PROOFS. The glide ratio (spec/42_ramp.md R150) as the guarded ratio of R121. -/

namespace Sys2Proof.Proofs

open Sys2Proof.Machine Sys2Proof.Laws

/-- With a duration the guarded ratio is the clamped quotient (R121). -/
theorem ratio_of_ne_zero {x d : F32} (h0 : d ≠ posZero) (hd : d.toNat ≤ infMag) :
    ratio x d = clamp01 (fdiv x d) :=
  if_neg (by simpa [duration_guard hd] using h0)

/-- A finite elapsed time over an infinite duration is `+0.0`, which the clamp keeps. -/
theorem ratio_infinite {x d : F32} (hx : x.toNat < infMag) (hd : d.toNat = infMag) : ratio x d = posZero := by
  have h0 : d ≠ posZero := by rintro rfl; exact absurd hd (by decide)
  have hquot : fdiv x d = posZero := BitVec.eq_of_toNat_eq (fdiv_nonneg_inf hx hd)
  rw [ratio_of_ne_zero h0 hd.le, hquot]
  decide

/-- Settles O22: elapsed time is finite and non-negative, so each clause is a case of the guarded ratio. -/
theorem glideRatioRunsFromZeroToOne : Obligations.GlideRatioRunsFromZeroToOne := by
  intro c p v hc hlegal
  have hglide : p.glide.toNat ≤ infMag := duration_le hlegal
  have ht : (tOf c v.n).toNat < infMag := tOf_lt_inf hc v.n
  rw [← posZero_bits, ← one_bits]
  unfold rampRatio
  refine ⟨fun hzero => ?_, fun hne => ratio_of_ne_zero hne hglide, ratio_finished ht hglide,
    fun hne (hn : v.n = 0#32) => ?_, fun hinf => ratio_infinite ht (by rw [hinf]; rfl)⟩
  · rw [hzero]; exact ratio_zero _
  · rw [hn, tOf_zero hc]; exact ratio_at_zero hne hglide

end Sys2Proof.Proofs
end

section
/-! PROOFS. The voice's sample (spec/43_voice.md R172 to R174): its formula, and its bound by the gain.  The absolute value of R12
compares magnitude bits, and a factor of magnitude up to 1.0 makes no magnitude larger. -/

namespace Sys2Proof.Proofs

open Sys2Proof.Machine Sys2Proof.Laws

/-! ### Absolute values -/

theorem magOf_fabs (a : F32) : magOf (fabs a) = magOf a := magOf_pack false (magOf_lt a)

theorem isNaN_fabs (a : F32) : isNaN (fabs a) = isNaN a := by unfold isNaN; rw [magOf_fabs]

theorem rankOf_fabs (a : F32) : rankOf (fabs a) = magOf a := rankOf_pack false (magOf_lt a)

/-- Absolute values are ordered as their magnitude bits. -/
theorem fle_fabs {a b : F32} (ha : isNaN a = false) (hb : isNaN b = false) :
    fle (fabs a) (fabs b) = decide (magOf a ≤ magOf b) := by
  rw [fle_eq_rank ((isNaN_fabs a).trans ha) ((isNaN_fabs b).trans hb), rankOf_fabs, rankOf_fabs]
  simp only [Nat.cast_le]

/-! ### The sample -/

section Sample

variable {c : Config} {p : Patch} {v : Voice}

theorem gain_finite (hc : ConfigWf c) : isFinite c.gain = true := by
  obtain ⟨-, -, hgain, -⟩ := hc
  exact hgain

/-- The step takes the waveform at the old phase, and the envelope does not read what the oscillator writes (R172). -/
theorem voiceStep_sample_of_active (w : Waveform) (h : v.active = true) :
    (voiceStep c p w v).1 = fmul (fmul (waveValue w v.phase) (ampAt c p v)) c.gain := by
  unfold voiceStep; rw [if_pos h]; rfl

theorem voiceStep_sample_of_idle (w : Waveform) (h : v.active = false) : (voiceStep c p w v).1 = posZero := by
  unfold voiceStep; rw [h]; rfl

/-- `raw *f amp` has a magnitude up to 1.0 (R174). -/
theorem magOf_raw_mul_amp_le_one (hc : ConfigWf c) (hp : PatchOk p) (hv : VoiceOk c v) (w : Waveform) :
    magOf (fmul (waveValue w v.phase) (ampAt c p v)) ≤ one.toNat := by
  have hraw : magOf (waveValue w v.phase) ≤ one.toNat := magOf_unit (waveValue_range hv.phase w)
  have hamp : (ampAt c p v).toNat ≤ one.toNat := ampAt_le_one hc hp hv
  have hfin : isFinite (ampAt c p v) = true := isFinite_of_lt (hamp.trans_lt (by decide))
  calc magOf (fmul (waveValue w v.phase) (ampAt c p v))
      ≤ magOf (ampAt c p v) := (fmul_mag_le hraw hfin).1
    _ = (ampAt c p v).toNat := magOf_nonneg (hamp.trans (by decide))
    _ ≤ one.toNat := hamp

/-- A voice's sample, `+0.0` of an idle voice included, is finite and within the gain (R174). -/
theorem voiceStep_sample_bounded (hc : ConfigWf c) (hp : PatchOk p) (hv : VoiceOk c v) (w : Waveform) :
    magOf (voiceStep c p w v).1 ≤ magOf c.gain ∧ isFinite (voiceStep c p w v).1 = true := by
  cases hactive : v.active with
  | true =>
    rw [voiceStep_sample_of_active w hactive]
    exact fmul_mag_le (magOf_raw_mul_amp_le_one hc hp hv w) (gain_finite hc)
  | false =>
    rw [voiceStep_sample_of_idle w hactive]
    exact ⟨Nat.zero_le _, by decide⟩

end Sample

/-- Settles O36: the formula is the step's own, and the bound on magnitudes is one on absolute values, for no operand is NaN. -/
theorem voiceSampleIsWithinGain : Obligations.VoiceSampleIsWithinGain := by
  intro s hs j v hj
  obtain ⟨hc, -, hvs, hp, -⟩ := (inv_iff s).mp hs
  refine ⟨voiceStep_sample_of_active _, ?_⟩
  obtain ⟨hmag, hfin⟩ := voiceStep_sample_bounded hc hp (hvs v (List.mem_of_getElem? hj)) (waveOf s.cfg j)
  rw [fle_fabs (finite_not_nan hfin) (finite_not_nan (gain_finite hc))]
  exact decide_eq_true hmag

end Sys2Proof.Proofs
end

section
/-! PROOFS. The allocator (spec/44_engine_commands.md R200, R205).  The stealing loop keeps a loop invariant: the voice chosen so far
is the first nearest one of the voices already looked at.  Distances are compared by their ranks, for none of them is a NaN. -/

namespace Sys2Proof.Proofs

open Sys2Proof.Machine Sys2Proof.Laws

/-! ### The two ways to choose a voice -/

theorem selectVoice_of_find {x : F32} {vs : List Voice} {i : Nat}
    (h : vs.findIdx? (fun v => !v.active) = some i) : selectVoice x vs = i := by
  unfold selectVoice; rw [h]

theorem selectVoice_of_all_active {x : F32} {v : Voice} {vs : List Voice} (h : ∀ w ∈ v :: vs, w.active = true) :
    selectVoice x (v :: vs) = stealFrom x 1 0 (distanceTo x v) vs := by
  have hnone : (v :: vs).findIdx? (fun w => !w.active) = none :=
    List.findIdx?_eq_none_iff.mpr fun w hw => by rw [h w hw]; rfl
  unfold selectVoice; rw [hnone]; rfl

theorem selectVoice_first_idle (x : F32) {vs : List Voice} (h : ∃ v ∈ vs, v.active = false) :
    ∃ u, vs[selectVoice x vs]? = some u ∧ u.active = false ∧
      ∀ j < selectVoice x vs, ∀ w : Voice, vs[j]? = some w → w.active = true := by
  obtain ⟨v, hv, hidle⟩ := h
  cases hfind : vs.findIdx? fun v => !v.active with
  | none =>
    have := List.findIdx?_eq_none_iff.mp hfind v hv
    simp [hidle] at this
  | some i =>
    rw [selectVoice_of_find hfind]
    obtain ⟨hi, hidle_i, hbefore⟩ := List.findIdx?_eq_some_iff_getElem.mp hfind
    refine ⟨vs[i], List.getElem?_eq_getElem hi, by simpa using hidle_i, fun j hj w hw => ?_⟩
    obtain ⟨_, rfl⟩ := List.getElem?_eq_some_iff.mp hw
    simpa using hbefore j hj

/-- The chosen voice is in the pool (R205). -/
theorem selectVoice_lt (x : F32) {vs : List Voice} (hne : vs ≠ []) : selectVoice x vs < vs.length := by
  by_cases hidle : ∃ v ∈ vs, v.active = false
  · obtain ⟨u, hu, -, -⟩ := selectVoice_first_idle x hidle
    exact (List.getElem?_eq_some_iff.mp hu).1
  · have hactive : ∀ v ∈ vs, v.active = true := by simpa using hidle
    cases vs with
    | nil => exact absurd rfl hne
    | cons v rest =>
      rw [selectVoice_of_all_active hactive, List.length_cons]
      rcases stealFrom_range x rest 1 0 (distanceTo x v) with h | ⟨-, h⟩ <;> omega

/-! ### The first nearest voice -/

/-- `u` is voice `k` of `vs`, no voice is nearer to `x`, and every voice before it is farther off. -/
structure FirstNearest (x : F32) (vs : List Voice) (k : Nat) (u : Voice) : Prop where
  chosen : vs[k]? = some u
  least : ∀ (j : Nat) (w : Voice), vs[j]? = some w → rankOf (distanceTo x u) ≤ rankOf (distanceTo x w)
  first : ∀ (j : Nat) (w : Voice), vs[j]? = some w → j < k → rankOf (distanceTo x u) < rankOf (distanceTo x w)

theorem firstNearest_singleton (x : F32) (v : Voice) : FirstNearest x [v] 0 v where
  chosen := rfl
  least j w hw := by
    obtain rfl : w = v := by simpa using List.mem_of_getElem? hw
    exact le_rfl
  first := nofun

theorem getElem?_concat_cases {vs : List Voice} {v w : Voice} {j : Nat} (h : (vs ++ [v])[j]? = some w) :
    vs[j]? = some w ∨ (j = vs.length ∧ w = v) := by
  rw [List.getElem?_append] at h
  split at h
  · exact .inl h
  · rw [List.getElem?_singleton] at h
    split at h
    · exact .inr ⟨by omega, (Option.some.inj h).symm⟩
    · cases h

section FirstNearest

variable {x : F32} {vs : List Voice} {k : Nat} {u v : Voice}

/-- One more voice that is not nearer: the choice stays. -/
theorem FirstNearest.keep (h : FirstNearest x vs k u) (hv : rankOf (distanceTo x u) ≤ rankOf (distanceTo x v)) :
    FirstNearest x (vs ++ [v]) k u := by
  have hk : k < vs.length := (List.getElem?_eq_some_iff.mp h.chosen).1
  refine ⟨by rw [List.getElem?_append_left hk]; exact h.chosen, fun j w hw => ?_, fun j w hw hj => ?_⟩
  · obtain hold | ⟨-, rfl⟩ := getElem?_concat_cases hw
    · exact h.least j w hold
    · exact hv
  · rw [List.getElem?_append_left (hj.trans hk)] at hw
    exact h.first j w hw hj

/-- One more voice that is nearer: it is chosen. -/
theorem FirstNearest.take (h : FirstNearest x vs k u) (hv : rankOf (distanceTo x v) < rankOf (distanceTo x u)) :
    FirstNearest x (vs ++ [v]) vs.length v := by
  refine ⟨List.getElem?_concat_length, fun j w hw => ?_, fun j w hw hj => ?_⟩
  · obtain hold | ⟨-, rfl⟩ := getElem?_concat_cases hw
    · exact hv.le.trans (h.least j w hold)
    · exact le_rfl
  · rw [List.getElem?_append_left hj] at hw
    exact hv.trans_le (h.least j w hw)

end FirstNearest

/-! ### The stealing loop -/

theorem stealFrom_cons (x : F32) (i best : Nat) (bd : F32) (v : Voice) (vs : List Voice) :
    stealFrom x i best bd (v :: vs) =
      if flt (distanceTo x v) bd then stealFrom x (i + 1) i (distanceTo x v) vs
      else stealFrom x (i + 1) best bd vs := rfl

/-- The loop over `rest`, begun with the first nearest voice of `seen`, ends with that of all of them. -/
theorem stealFrom_firstNearest {x : F32} {seen rest : List Voice} {best : Nat} {u : Voice}
    (hnan : ∀ v ∈ seen ++ rest, isNaN (distanceTo x v) = false) (h : FirstNearest x seen best u) :
    ∃ w, FirstNearest x (seen ++ rest) (stealFrom x seen.length best (distanceTo x u) rest) w := by
  induction rest generalizing seen best u with
  | nil => exact ⟨u, by simpa [stealFrom] using h⟩
  | cons v rest ih =>
    have hu : isNaN (distanceTo x u) = false := hnan u (List.mem_append_left _ (List.mem_of_getElem? h.chosen))
    have hv : isNaN (distanceTo x v) = false := hnan v (by simp)
    have hrest : seen ++ v :: rest = seen ++ [v] ++ rest := by simp
    have hlen : seen.length + 1 = (seen ++ [v]).length := by simp
    rw [hrest] at hnan ⊢
    rw [stealFrom_cons, hlen, flt_eq_rank hv hu]
    by_cases hnearer : rankOf (distanceTo x v) < rankOf (distanceTo x u)
    · rw [decide_eq_true hnearer]
      exact ih hnan (h.take hnearer)
    · rw [decide_eq_false hnearer]
      exact ih hnan (h.keep (not_lt.mp hnearer))

/-- The distance of a finite target from a finite frequency is no NaN. -/
theorem distanceTo_not_nan {x : F32} {v : Voice} (hx : playable x = true) (hv : playable v.endFreq = true) :
    isNaN (distanceTo x v) = false := by
  have hxfin := isFinite_of_lt ((playable_iff x).mp hx).2
  have hvfin := isFinite_of_lt ((playable_iff v.endFreq).mp hv).2
  exact (isNaN_fabs _).trans (fsub_not_nan (finite_not_nan hvfin) hxfin)

theorem selectVoice_firstNearest {x : F32} {vs : List Voice} (hne : vs ≠ [])
    (hactive : ∀ v ∈ vs, v.active = true) (hnan : ∀ v ∈ vs, isNaN (distanceTo x v) = false) :
    ∃ u, FirstNearest x vs (selectVoice x vs) u := by
  cases vs with
  | nil => exact absurd rfl hne
  | cons v rest =>
    rw [selectVoice_of_all_active hactive]
    exact stealFrom_firstNearest (seen := [v]) hnan (firstNearest_singleton x v)

/-- Settles O23: the search finds the first idle voice; without one the stealing loop ends with the first nearest voice. -/
theorem allocatorPrefersIdleElseNearest : Obligations.AllocatorPrefersIdleElseNearest := by
  refine ⟨fun x _ => selectVoice_first_idle x, fun x vs hne hx hall => ?_⟩
  have hnan : ∀ v ∈ vs, isNaN (distanceTo x v) = false := fun v hv => distanceTo_not_nan hx (hall v hv).2
  obtain ⟨u, hu⟩ := selectVoice_firstNearest hne (fun v hv => (hall v hv).1) hnan
  have hu_nan := hnan u (List.mem_of_getElem? hu.chosen)
  refine ⟨u, hu.chosen, fun j w hw => ?_⟩
  rw [fle_eq_rank hu_nan (hnan w (List.mem_of_getElem? hw)), flt_eq_rank hu_nan (hnan w (List.mem_of_getElem? hw))]
  exact ⟨decide_eq_true (hu.least j w hw), fun hj => decide_eq_true (hu.first j w hw hj)⟩

/-! ### No step changes the parameters (R401) -/

theorem setPatch_cfg (write : F32 → Patch → Patch) (r : Option F32 × Bool) (s : State) :
    (setPatch write r s).cfg = s.cfg := by
  rw [setPatch_eq]

theorem readVoice_cfg (idx : Nat) (word : State → Word32) (s : State) : (readVoice idx word s).cfg = s.cfg := by
  rcases readVoice_cases idx word s with h | h <;> rw [h]
  · exact emit_cfg _ s
  · exact raiseEvent_cfg _ s

theorem execPlay_cfg (x : F32) (s : State) : ∃ t, execPlay x s = .next t ∧ t.cfg = s.cfg := by
  unfold execPlay
  split
  · exact ⟨_, rfl, updateVoice_cfg _ _ s⟩
  · exact ⟨_, rfl, raiseEvent_cfg _ s⟩

theorem exec_cfg (i : Instr) (s : State) : ∃ t, exec i s = .next t ∧ t.cfg = s.cfg := by
  cases i with
  | play x => exact execPlay_cfg x s
  | stop _ | sample => exact ⟨_, rfl, rfl⟩
  | setAttack _ | setDecay _ | setSustain _ | setRelease _ | setGlide _ => exact ⟨_, rfl, setPatch_cfg _ _ s⟩
  | readRegStatus | readRegAttack | readRegDecay | readRegSustain | readRegRelease | readRegGlide | readRegGain
  | readRegNvoices | readRegSr => exact ⟨_, rfl, emit_cfg _ s⟩
  | readVoiceActive _ | readVoicePhase _ | readVoiceOscFreq _ | readVoiceStart _ | readVoiceEnd _ | readVoiceN _
  | readVoiceRel _ | readVoiceNRel _ | readVoiceRelAmp _ | readVoiceRtgAmp _ | readVoiceWave _ | readVoiceState _
  | readVoiceAmp _ => exact ⟨_, rfl, readVoice_cfg _ _ s⟩

theorem runWord_cfg (w : CmdWord) (s : State) : ∃ t, runWord w s = .next t ∧ t.cfg = s.cfg := by
  unfold runWord
  split
  · exact exec_cfg _ s
  · exact ⟨_, rfl, raiseEvent_cfg _ s⟩

theorem step_cfg (s : State) : ∃ t, step s = .next t ∧ t.cfg = s.cfg := by
  unfold step
  split
  · exact ⟨s, rfl, rfl⟩
  · exact runWord_cfg _ _
  · exact ⟨_, rfl, takeResponse_cfg _⟩
  · exact ⟨_, rfl, assertReset_cfg _⟩

/-- Settles O24: the pool's size is part of the invariant, which a step keeps together with the parameters. -/
theorem allocatorStaysInPool : Obligations.AllocatorStaysInPool := by
  refine ⟨fun x _ => selectVoice_lt x, fun s t hs hstep => ?_⟩
  obtain ⟨t', hstep', ht⟩ := step_inv hs
  obtain rfl := Host.Outcome.next.inj (hstep'.symm.trans hstep)
  obtain ⟨t'', hstep'', hcfg⟩ := step_cfg s
  obtain rfl := Host.Outcome.next.inj (hstep''.symm.trans hstep)
  obtain ⟨⟨hone, -⟩, -⟩ := ht.cfg
  exact ⟨ht.pool, congrArg Config.nvoices hcfg, hone⟩

end Sys2Proof.Proofs
end

section
/-! PROOFS. What PLAY, STOP and SAMPLE answer (spec/44_engine_commands.md R201 to R204), with the fields of a voice afterwards in the
statements' own terms. -/

namespace Sys2Proof.Proofs

open Sys2Proof.Machine Sys2Proof.Laws

/-! ### PLAY -/

theorem voicePlay_eq_triggered (c : Config) (p : Patch) (x : F32) (v : Voice) :
    voicePlay c p x v = triggered c p x v := rfl

theorem updateVoice_eq_set {s : State} {i : Nat} {v : Voice} (h : s.voices[i]? = some v) (f : Voice → Voice) :
    updateVoice i f s = { s with voices := s.voices.set i (f v) } := by
  unfold updateVoice
  rw [List.modify_eq_set_getElem?, h]; rfl

theorem exec_play_of_playable {x : F32} (h : playable x = true) (s : State) :
    exec (.play x) s = .next (updateVoice (selectVoice x s.voices) (voicePlay s.cfg s.patch x) s) :=
  if_pos h

theorem exec_play_of_not_playable {x : F32} (h : ¬ playable x = true) (s : State) :
    exec (.play x) s = .next (raiseEvent .cv s) :=
  if_neg h

/-- Settles O25: an operand is playable when its pattern lies between those of `+0.0` and `+inf`; replacing the chosen voice,
which is in the pool, is one `set`. -/
theorem playTriggersTheChosenVoice : Obligations.PlayTriggersTheChosenVoice := by
  constructor
  · intro s x hne hpos hlt
    obtain ⟨v, hv⟩ : ∃ v, s.voices[selectVoice x s.voices]? = some v :=
      ⟨_, List.getElem?_eq_getElem (selectVoice_lt x hne)⟩
    refine ⟨v, hv, ?_⟩
    rw [exec_play_of_playable ((playable_iff x).mpr ⟨hpos, hlt⟩), updateVoice_eq_set hv, voicePlay_eq_triggered]
  · intro s x hx
    have hnot : ¬ playable x = true := by
      rw [playable_iff]; unfold infMag; omega
    exact exec_play_of_not_playable hnot s

/-! ### STOP -/

theorem stopMatches_iff (x : F32) (v : Voice) : stopMatches x v = true ↔ v.active = true ∧ v.endFreq = x := by
  rw [stopMatches, Bool.and_eq_true, beqBits_iff]

theorem voiceStop_of_rel {c : Config} {p : Patch} {v : Voice} (h : v.rel = true) : voiceStop c p v = v :=
  if_pos h

theorem voiceStop_of_not_rel {c : Config} {p : Patch} {v : Voice} (h : v.rel = false) :
    voiceStop c p v = { v with relAmp := ampAt c p v, nRel := v.n, rel := true } := by
  unfold voiceStop envRelease; rw [if_neg (by simp [h])]

/-- A STOP releases a voice that matches, unless it is released already (R202, R133). -/
theorem stop_voice_eq_stopped (c : Config) (p : Patch) (x : F32) (v : Voice) :
    (if stopMatches x v then voiceStop c p v else v) = stopped c p x v := by
  unfold stopped
  by_cases hmatch : stopMatches x v = true
  · obtain ⟨hactive, hend⟩ := (stopMatches_iff x v).mp hmatch
    rw [if_pos hmatch]
    cases hrel : v.rel with
    | true => rw [voiceStop_of_rel hrel, if_neg (by simp)]
    | false => rw [voiceStop_of_not_rel hrel, if_pos ⟨hactive, hend, rfl⟩]
  · rw [if_neg hmatch, if_neg fun ⟨hactive, hend, _⟩ => hmatch ((stopMatches_iff x v).mpr ⟨hactive, hend⟩)]

theorem exec_stop_eq (x : F32) (s : State) :
    exec (.stop x) s = .next { s with voices := s.voices.map (stopped s.cfg s.patch x) } := by
  have hvoices : s.voices.map (fun v => if stopMatches x v then voiceStop s.cfg s.patch v else v) =
      s.voices.map (stopped s.cfg s.patch x) :=
    List.map_congr_left fun v _ => stop_voice_eq_stopped s.cfg s.patch x v
  rw [← hvoices]; rfl

/-- Settles O27: STOP maps every voice to what the statement calls `stopped`. -/
theorem stopReleasesMatchingVoices : Obligations.StopReleasesMatchingVoices := by
  intro s x
  refine ⟨_, exec_stop_eq x s, rfl, List.length_map _, fun j v hv => ?_⟩
  rw [List.getElem?_map, hv]; rfl

/-! ### SAMPLE -/

theorem satInc_eq_counterAfter (n : Word32) : satInc n = counterAfter n := by
  unfold satInc counterAfter
  by_cases htop : n = 0xFFFFFFFF#32
  · rw [htop]; decide
  · have hlt : n.toNat < 2 ^ 32 - 1 := by bv_omega
    rw [if_pos hlt, if_neg htop]

theorem deactivateIfDone_eq (c : Config) (p : Patch) (v : Voice) :
    deactivateIfDone c p v = { v with active := v.active && !isDone c p v } := by
  unfold deactivateIfDone
  cases isDone c p v <;> simp

section Step

variable (c : Config) (p : Patch) (w : Waveform) {v : Voice}

theorem voiceStep_voice_of_active (h : v.active = true) :
    (voiceStep c p w v).2 =
      deactivateIfDone c p (envAdvance (oscStep c w (oscSetFreq c (instFreq c p v) v)).2) := by
  unfold voiceStep; rw [if_pos h]

theorem voiceStep_voice_of_idle (h : v.active = false) : (voiceStep c p w v).2 = v := by
  unfold voiceStep; rw [h]; rfl

end Step

/-- A voice's step in the statement's terms: its release is done at the counter it has just advanced (R172, R175). -/
theorem voiceStep_voice_eq_stepped (c : Config) (p : Patch) (w : Waveform) (v : Voice) :
    (voiceStep c p w v).2 = stepped c p v := by
  unfold stepped
  cases hactive : v.active with
  | true =>
    rw [if_pos rfl, ← satInc_eq_counterAfter, voiceStep_voice_of_active c p w hactive, deactivateIfDone_eq]
    simp only [envAdvance, oscStep, oscSetFreq, hactive, Bool.true_and]
    rfl
  | false => exact voiceStep_voice_of_idle c p w hactive

theorem voiceStep_sample_eq_sampleOf (c : Config) (p : Patch) (j : Nat) (v : Voice) :
    (voiceStep c p (waveOf c j) v).1 = sampleOf c p j v := by
  unfold sampleOf
  cases hactive : v.active with
  | true => rw [if_pos rfl]; exact voiceStep_sample_of_active _ hactive
  | false => exact voiceStep_sample_of_idle _ hactive

theorem sampleFrom_voices_eq (c : Config) (p : Patch) (vs : List Voice) (i : Nat) (acc : F32) :
    (sampleFrom c p i acc vs).2 = vs.map (stepped c p) := by
  refine List.ext_getElem? fun j => ?_
  rw [sampleFrom_get, List.getElem?_map]
  simp only [voiceStep_voice_eq_stepped]

theorem sampleFrom_eq_mixOf (c : Config) (p : Patch) (vs : List Voice) :
    (sampleFrom c p 0 posZero vs).1 = mixOf c p vs := by
  rw [sampleFrom_mix]
  simp only [Nat.zero_add, voiceStep_sample_eq_sampleOf]
  rfl

/-- SAMPLE in one record: every voice stepped, the mix appended, all else kept (R203). -/
theorem exec_sample_eq (s : State) :
    exec .sample s = .next { s with
      voices := s.voices.map (stepped s.cfg s.patch)
      resp := s.resp ++ [mixOf s.cfg s.patch s.voices] } := by
  rw [← sampleFrom_eq_mixOf, ← sampleFrom_voices_eq]; rfl

/-- Settles O32: SAMPLE maps every voice to what the statement calls `stepped`. -/
theorem sampleStepsVoicesAndMixes : Obligations.SampleStepsVoicesAndMixes := by
  intro s
  refine ⟨_, exec_sample_eq s, rfl, List.length_map _, fun j v hv => ?_⟩
  rw [List.getElem?_map, hv]; rfl

/-! ### The mix -/

/-- Finite addends keep a sum from being `-0.0` or a NaN, an infinite partial sum included (R204). -/
theorem foldl_fadd_ne_negZero_not_nan {xs : List F32} (hxs : ∀ x ∈ xs, isFinite x = true) :
    xs.foldl fadd posZero ≠ negZero ∧ isNaN (xs.foldl fadd posZero) = false :=
  List.foldlRecOn (motive := fun acc => acc ≠ negZero ∧ isNaN acc = false) xs fadd ⟨by decide, by decide⟩
    fun _ ⟨hzero, hnan⟩ x hx => ⟨fadd_ne_negZero (.inl hzero), fadd_not_nan hnan (hxs x hx)⟩

theorem fadd_of_inf_of_finite {a x : F32} (ha : isInf a = true) (hx : isFinite x = true) : fadd a x = a := by
  have hnan : isNaN a = false := by
    unfold isInf at ha
    rw [not_nan_iff_magOf]
    exact (of_decide_eq_true ha).le
  unfold fadd
  simp [hnan, ha, finite_not_nan hx, finite_not_inf hx]

/-- Settles O35: every sample is finite under the invariant, so the sum from `+0.0` stays away from `-0.0` and NaN. -/
theorem mixIsNeverNegativeZeroOrNaN : Obligations.MixIsNeverNegativeZeroOrNaN := by
  refine ⟨fun s hs => ?_, fun a x => fadd_of_inf_of_finite⟩
  obtain ⟨hc, -, hvs, hp, -⟩ := (inv_iff s).mp hs
  have hfin : ∀ (j : Nat) (v : Voice), s.voices[j]? = some v → isFinite (sampleOf s.cfg s.patch j v) = true := by
    intro j v hv
    rw [← voiceStep_sample_eq_sampleOf]
    exact (voiceStep_sample_bounded hc hp (hvs v (List.mem_of_getElem? hv)) _).2
  refine ⟨_, _, exec_sample_eq s, rfl, rfl, hfin, foldl_fadd_ne_negZero_not_nan fun x hx => ?_⟩
  obtain ⟨j, hj, rfl⟩ := List.mem_mapIdx.mp hx
  exact hfin j s.voices[j] (List.getElem?_eq_getElem hj)

end Sys2Proof.Proofs
end

section
/-! PROOFS. The setters and the observation port (spec/45_parameter_commands.md R220 to R228).  The classes of R220 and R221 are
ranges of bit patterns; one lemma for each class says what the checks of the sanitation answer there. -/

namespace Sys2Proof.Proofs

open Sys2Proof.Machine Sys2Proof.Laws

/-! ### What the checks of the sanitation answer on each class of patterns -/

section Patterns

variable {x : F32}

theorem isNaN_of_unsigned_pattern (hlo : 0x7F800000 < x.toNat) (hhi : x.toNat < 0x80000000) : isNaN x = true := by
  rw [isNaN_iff_magOf]; unfold magOf; omega

theorem isNaN_of_signed_pattern (h : 0xFF800000 < x.toNat) : isNaN x = true := by
  have := x.isLt
  rw [isNaN_iff_magOf]; unfold magOf; omega

theorem eq_negZero_of_pattern (h : x.toNat = 0x80000000) : x = negZero := BitVec.eq_of_toNat_eq h

theorem below_zero_of_negative_pattern (hlo : 0x80000000 < x.toNat) (hhi : x.toNat ≤ 0xFF800000) :
    isNaN x = false ∧ flt x posZero = true := by
  have hmag : magOf x = x.toNat - 0x80000000 := by unfold magOf; omega
  have hsign : signOf x = true := by rw [signOf_eq]; exact decide_eq_true hlo.le
  have hnan : isNaN x = false := (not_nan_iff_magOf x).mpr (by omega)
  have hrank : rankOf x = -(magOf x : Int) := if_pos hsign
  have hzero : rankOf posZero = 0 := by decide
  refine ⟨hnan, ?_⟩
  rw [flt_eq_rank hnan (by decide), decide_eq_true_eq, hrank, hzero]
  omega

theorem not_below_zero_of_nonneg (h : x.toNat ≤ infMag) : flt x posZero = false := by
  rw [flt_nonneg h (by decide)]; exact decide_eq_false (Nat.not_lt_zero _)

/-- Storing `+0.0` for an operand equal to zero changes no operand but `-0.0`. -/
theorem zero_or_self_of_nonneg (h : x.toNat ≤ infMag) :
    (if feq x posZero then (some posZero, false) else (some x, false)) = (some x, false) := by
  rw [feq_eq_rank (isNaN_nonneg h) (by decide), rankOf_nonneg h, rankOf_nonneg (a := posZero) (by decide)]
  split_ifs with heq
  · have hx : posZero = x := BitVec.eq_of_toNat_eq (Int.ofNat.inj (of_decide_eq_true heq)).symm
    rw [hx]
  · rfl

/-! ### What the sanitation makes of each class (R220, R221) -/

theorem sanitizeDuration_of_nan (h : isNaN x = true) : sanitizeDuration x = (none, true) := if_pos h

theorem sanitizeLevel_of_nan (h : isNaN x = true) : sanitizeLevel x = (none, true) := if_pos h

theorem sanitizeDuration_negZero : sanitizeDuration negZero = (some posZero, false) := by decide

theorem sanitizeLevel_negZero : sanitizeLevel negZero = (some posZero, false) := by decide

theorem sanitizeDuration_of_negative (hlo : 0x80000000 < x.toNat) (hhi : x.toNat ≤ 0xFF800000) :
    sanitizeDuration x = (some posZero, true) := by
  obtain ⟨hnan, hneg⟩ := below_zero_of_negative_pattern hlo hhi
  simp [sanitizeDuration, hnan, hneg]

theorem sanitizeLevel_of_negative (hlo : 0x80000000 < x.toNat) (hhi : x.toNat ≤ 0xFF800000) :
    sanitizeLevel x = (some posZero, true) := by
  obtain ⟨hnan, hneg⟩ := below_zero_of_negative_pattern hlo hhi
  simp [sanitizeLevel, hnan, hneg]

theorem sanitizeDuration_of_nonneg (h : x.toNat ≤ infMag) : sanitizeDuration x = (some x, false) := by
  simp [sanitizeDuration, isNaN_nonneg h, not_below_zero_of_nonneg h, zero_or_self_of_nonneg h]

theorem sanitizeLevel_of_above_one (hlo : one.toNat < x.toNat) (hhi : x.toNat ≤ infMag) :
    sanitizeLevel x = (some one, true) := by
  have hone : flt one x = true := by rw [flt_nonneg (by decide) hhi]; exact decide_eq_true hlo
  simp [sanitizeLevel, isNaN_nonneg hhi, not_below_zero_of_nonneg hhi, hone]

theorem sanitizeLevel_of_unit (h : x.toNat ≤ one.toNat) : sanitizeLevel x = (some x, false) := by
  have hinf : x.toNat ≤ infMag := h.trans (by decide)
  have hone : flt one x = false := by rw [flt_nonneg (by decide) hinf]; exact decide_eq_false h.not_gt
  simp [sanitizeLevel, isNaN_nonneg hinf, not_below_zero_of_nonneg hinf, hone, zero_or_self_of_nonneg hinf]

end Patterns

/-! ### The setters -/

/-- What a setter leaves in its register that held `old`, and whether it raises CV. -/
def storedAfter (r : Option F32 × Bool) (old : F32) : F32 × Bool := (r.1.getD old, r.2)

/-- A discarded operand leaves the register as if its old content were written again. -/
theorem setPatch_eq_storedAfter {write : F32 → Patch → Patch} {old : F32} {s : State}
    (hold : write old s.patch = s.patch) (r : Option F32 × Bool) :
    setPatch write r s = { s with
      patch := write (storedAfter r old).1 s.patch
      status := statusAfter (storedAfter r old).2 s.status } := by
  rw [setPatch_eq]
  obtain ⟨_ | y, cv⟩ := r
  · simp only [storedAfter, Option.getD_none, hold]; rfl
  · rfl

theorem storedAfter_sanitizeDuration (x old : F32) : storedAfter (sanitizeDuration x) old = durationAfter x old := by
  unfold durationAfter
  split_ifs with hnonneg hunsigned hzero hneg
  · rw [sanitizeDuration_of_nonneg hnonneg]; rfl
  · rw [sanitizeDuration_of_nan (isNaN_of_unsigned_pattern (by omega) hunsigned)]; rfl
  · rw [eq_negZero_of_pattern hzero, sanitizeDuration_negZero]; rfl
  · rw [sanitizeDuration_of_negative (by omega) hneg]; rfl
  · rw [sanitizeDuration_of_nan (isNaN_of_signed_pattern (by omega))]; rfl

theorem storedAfter_sanitizeLevel (x old : F32) : storedAfter (sanitizeLevel x) old = levelAfter x old := by
  unfold levelAfter
  split_ifs with hunit hnonneg hunsigned hzero hneg
  · rw [sanitizeLevel_of_unit hunit]; rfl
  · rw [sanitizeLevel_of_above_one (not_le.mp hunit) hnonneg]; rfl
  · rw [sanitizeLevel_of_nan (isNaN_of_unsigned_pattern (by omega) hunsigned)]; rfl
  · rw [eq_negZero_of_pattern hzero, sanitizeLevel_negZero]; rfl
  · rw [sanitizeLevel_of_negative (by omega) hneg]; rfl
  · rw [sanitizeLevel_of_nan (isNaN_of_signed_pattern (by omega))]; rfl

theorem setPatch_sanitizeDuration {write : F32 → Patch → Patch} {old : F32} {s : State}
    (hold : write old s.patch = s.patch) (x : F32) :
    setPatch write (sanitizeDuration x) s = { s with
      patch := write (durationAfter x old).1 s.patch
      status := statusAfter (durationAfter x old).2 s.status } := by
  rw [setPatch_eq_storedAfter hold, storedAfter_sanitizeDuration]

/-- Settles O43: the four setters write by the same operation, and the sanitation agrees with R220 class by class. -/
theorem durationSettersSanitise : Obligations.DurationSettersSanitise := fun _ x =>
  ⟨congrArg Host.Outcome.next (setPatch_sanitizeDuration rfl x),
    congrArg Host.Outcome.next (setPatch_sanitizeDuration rfl x),
    congrArg Host.Outcome.next (setPatch_sanitizeDuration rfl x),
    congrArg Host.Outcome.next (setPatch_sanitizeDuration rfl x)⟩

/-- Settles O44: as the duration setters, with the sanitation of R221. -/
theorem sustainSetterSanitises : Obligations.SustainSetterSanitises := by
  intro s x
  rw [← storedAfter_sanitizeLevel]
  exact congrArg Host.Outcome.next (setPatch_eq_storedAfter rfl (sanitizeLevel x))

/-! ### Reads -/

/-- Settles O45: each command emits its register's content, and `emit` is the append. -/
theorem readRegAppendsItsRegister : Obligations.ReadRegAppendsItsRegister := fun _ =>
  ⟨rfl, rfl, rfl, rfl, rfl, rfl, rfl, rfl, rfl⟩

/-- A READ_VOICE whose word is computed from the voice at its index appends that word of the voice there (R228). -/
theorem next_readVoice_of_get {s : State} {k : Nat} {v : Voice} (hk : k < s.cfg.nvoices) (hv : s.voices[k]? = some v)
    (word : State → Voice → Word32) :
    (.next (readVoice k (fun t => word t (voiceAt t k)) s) : Host.Outcome State Fault Refusal) =
      .next { s with resp := s.resp ++ [word s v] } := by
  rw [readVoice_inside hk, voiceAt_of_get hv]; rfl

/-- Every READ_VOICE is the shared operation with a word of its own. -/
theorem exec_eq_readVoice {i : Instr} {k : Nat} (h : voiceRead i = some k) :
    ∃ word : State → Word32, ∀ s, exec i s = .next (readVoice k word s) := by
  cases i with
  | play _ | stop _ | sample | setAttack _ | setDecay _ | setSustain _ | setRelease _ | setGlide _ | readRegStatus
  | readRegAttack | readRegDecay | readRegSustain | readRegRelease | readRegGlide | readRegGain | readRegNvoices
  | readRegSr => cases h
  | readVoiceActive _ | readVoicePhase _ | readVoiceOscFreq _ | readVoiceStart _ | readVoiceEnd _ | readVoiceN _
  | readVoiceRel _ | readVoiceNRel _ | readVoiceRelAmp _ | readVoiceRtgAmp _ | readVoiceWave _ | readVoiceState _
  | readVoiceAmp _ => cases h; exact ⟨_, fun _ => rfl⟩

theorem exec_readVoice_outside {i : Instr} {k : Nat} {s : State} (h : voiceRead i = some k) (hk : s.cfg.nvoices ≤ k) :
    exec i s = .next (raiseEvent .cv s) := by
  obtain ⟨word, hword⟩ := exec_eq_readVoice h
  rw [hword, readVoice_outside hk]

theorem exec_readVoiceWave {s : State} {k : Nat} {w : Waveform} (hk : k < s.cfg.nvoices) (hw : s.cfg.wave[k]? = some w) :
    exec (.readVoiceWave k) s = .next { s with resp := s.resp ++ [waveCode w] } := by
  rw [← waveOf_of_get hw]
  exact congrArg Host.Outcome.next (readVoice_inside hk _)

/-- Settles O46: the pool's entry at the index is the voice the command reads; outside the pool the word is never computed. -/
theorem readVoiceAppendsItsField : Obligations.ReadVoiceAppendsItsField := by
  refine ⟨fun s k v hk hv => ?_, fun s i k hi hk => exec_readVoice_outside hi hk⟩
  have field := next_readVoice_of_get hk hv
  exact ⟨field fun _ u => boolWord u.active, field fun _ => Voice.phase, field fun _ => Voice.oscFreq,
    field fun _ => Voice.start, field fun _ => Voice.endFreq, field fun _ => Voice.n, field fun _ u => boolWord u.rel,
    field fun _ => Voice.nRel, field fun _ => Voice.relAmp, field fun _ => Voice.rtgAmp,
    fun w hw => exec_readVoiceWave hk hw,
    field fun t u => (envState t.cfg t.patch u).code, field fun t => ampAt t.cfg t.patch⟩

end Sys2Proof.Proofs
end

section
/-! PROOFS. The error events (spec/60_exceptions.md R302 to R306, R317): which words are illegal, what one step does with each kind of
input, and that `STATUS` only gains bits between resets. -/

namespace Sys2Proof.Proofs

open Sys2Proof.Machine Sys2Proof.Laws

/-! ### Which words are illegal (R304) -/

section IllegalWords

variable {w : CmdWord}

theorem withoutSel_error_iff {i : Instr} : (∃ c, withoutSel w i = .error c) ↔ selOf w ≠ 0#8 := by
  unfold withoutSel
  split_ifs with h
  · exact iff_of_false nofun (not_not.mpr h)
  · exact iff_of_true ⟨_, rfl⟩ h

theorem withoutOpd_error_iff {r : Except IllegalCause Instr} :
    (∃ c, withoutOpd w r = .error c) ↔ opdOf w ≠ 0#32 ∨ ∃ c, r = .error c := by
  unfold withoutOpd
  split_ifs with h
  · exact (or_iff_right (not_not.mpr h)).symm
  · exact iff_of_true ⟨_, rfl⟩ (.inl h)

theorem readRegOf_error_iff {sel : Nat} : (∃ c, readRegOf sel = .error c) ↔ 8 < sel := by
  match sel with
  | 0 | 1 | 2 | 3 | 4 | 5 | 6 | 7 | 8 => exact iff_of_false nofun (by decide)
  | n + 9 => exact iff_of_true ⟨_, rfl⟩ (by omega)

theorem readVoiceOf_error_iff {sel idx : Nat} : (∃ c, readVoiceOf sel idx = .error c) ↔ 12 < sel := by
  match sel with
  | 0 | 1 | 2 | 3 | 4 | 5 | 6 | 7 | 8 | 9 | 10 | 11 | 12 => exact iff_of_false nofun (by decide)
  | n + 13 => exact iff_of_true ⟨_, rfl⟩ (by omega)

/-- SAMPLE has neither selector nor operand (R73). -/
theorem sample_error_iff :
    (∃ c, (if selOf w = 0 then withoutOpd w (.ok .sample) else .error .selNonzero) = .error c) ↔
      selOf w ≠ 0#8 ∨ opdOf w ≠ 0#32 := by
  split_ifs with h
  · rw [withoutOpd_error_iff, or_iff_left nofun]
    exact (or_iff_right (not_not.mpr h)).symm
  · exact iff_of_true ⟨_, rfl⟩ (.inl h)

end IllegalWords

/-- Settles O3: the decoder's own case split on the opcode, with one lemma for each check it makes there. -/
theorem wordIllegalIffACauseHolds : Obligations.WordIllegalIffACauseHolds := by
  intro w
  change _ ↔ rsvOf w ≠ 0 ∨
    (opcOf w).toNat ∉ [0x01, 0x02, 0x03, 0x10, 0x11, 0x12, 0x13, 0x14, 0x20, 0x21] ∨
    (0x01 ≤ (opcOf w).toNat ∧ (opcOf w).toNat ≤ 0x14 ∧ selOf w ≠ 0#8) ∨
    ((opcOf w = 0x03#8 ∨ opcOf w = 0x20#8) ∧ opdOf w ≠ 0#32) ∨
    (opcOf w = 0x20#8 ∧ 8 < (selOf w).toNat) ∨ (opcOf w = 0x21#8 ∧ 12 < (selOf w).toNat)
  simp only [BitVec.toNat_eq (x := opcOf w)]
  unfold decode
  by_cases hrsv : rsvOf w ≠ 0
  · rw [if_pos hrsv]
    exact iff_of_true ⟨_, rfl⟩ (.inl hrsv)
  rw [if_neg hrsv, or_iff_right hrsv]
  split <;> rename_i hopc
  case h_3 => rw [sample_error_iff]; simp [hopc]
  case h_9 => rw [withoutOpd_error_iff, readRegOf_error_iff]; simp [hopc]
  case h_10 => rw [readVoiceOf_error_iff]; simp [hopc]
  case h_11 => exact iff_of_true ⟨_, rfl⟩ (.inl (by simp_all))
  case h_1 | h_2 | h_4 | h_5 | h_6 | h_7 | h_8 => rw [withoutSel_error_iff]; simp [hopc]

/-! ### One step, by the kind of its input -/

section StepByInput

variable {s : State} {rest : List HostInput}

theorem step_waiting (h : s.input = []) : step s = .next s := by
  unfold step; rw [h]

theorem step_command {w : CmdWord} (h : s.input = .command w :: rest) :
    step s = runWord w { s with input := rest } := by
  unfold step; rw [h]

theorem step_take (h : s.input = .take :: rest) : step s = .next (takeResponse { s with input := rest }) := by
  unfold step; rw [h]

end StepByInput

theorem runWord_ok {w : CmdWord} {i : Instr} (h : decode w = .ok i) (s : State) : runWord w s = exec i s := by
  unfold runWord; rw [h]

theorem runWord_error {w : CmdWord} {c : IllegalCause} (h : decode w = .error c) (s : State) :
    runWord w s = .next (raiseEvent .ill s) := by
  unfold runWord; rw [h]

/-- Settles O11: the case of `step` for an empty input list. -/
theorem waitingHoldsAllState : Obligations.WaitingHoldsAllState := fun _ => step_waiting

/-! ### `STATUS` only gains bits (R26, R306) -/

theorem setPatch_status (write : F32 → Patch → Patch) (r : Option F32 × Bool) (s : State) :
    (setPatch write r s).status = s.status ∨ (setPatch write r s).status = s.status ||| 0x00000002#32 := by
  rw [setPatch_eq]
  obtain ⟨o, _ | _⟩ := r
  · exact .inl rfl
  · exact .inr rfl

theorem readVoice_status (idx : Nat) (word : State → Word32) (s : State) :
    (readVoice idx word s).status = s.status ∨ (readVoice idx word s).status = s.status ||| 0x00000002#32 := by
  rcases readVoice_cases idx word s with h | h <;> rw [h]
  · exact .inl (emit_status _ s)
  · exact .inr (raiseEvent_status _ s)

theorem execPlay_status (x : F32) (s : State) :
    ∃ t, execPlay x s = .next t ∧ (t.status = s.status ∨ t.status = s.status ||| 0x00000002#32) := by
  unfold execPlay
  split
  · exact ⟨_, rfl, .inl (updateVoice_status _ _ s)⟩
  · exact ⟨_, rfl, .inr (raiseEvent_status _ s)⟩

/-- A command raises CV or no event. -/
theorem exec_status (i : Instr) (s : State) :
    ∃ t, exec i s = .next t ∧ (t.status = s.status ∨ t.status = s.status ||| 0x00000002#32) := by
  cases i with
  | play x => exact execPlay_status x s
  | stop _ | sample => exact ⟨_, rfl, .inl rfl⟩
  | setAttack _ | setDecay _ | setSustain _ | setRelease _ | setGlide _ => exact ⟨_, rfl, setPatch_status _ _ s⟩
  | readRegStatus | readRegAttack | readRegDecay | readRegSustain | readRegRelease | readRegGlide | readRegGain
  | readRegNvoices | readRegSr => exact ⟨_, rfl, .inl (emit_status _ s)⟩
  | readVoiceActive _ | readVoicePhase _ | readVoiceOscFreq _ | readVoiceStart _ | readVoiceEnd _ | readVoiceN _
  | readVoiceRel _ | readVoiceNRel _ | readVoiceRelAmp _ | readVoiceRtgAmp _ | readVoiceWave _ | readVoiceState _
  | readVoiceAmp _ => exact ⟨_, rfl, readVoice_status _ _ s⟩

/-- Every status bit set before is set after. -/
def StatusKept (s t : State) : Prop := ∀ b, s.status.getLsbD b = true → t.status.getLsbD b = true

theorem statusKept_of_eq {s t : State} (h : t.status = s.status) : StatusKept s t := by
  intro b hb
  rwa [h]

theorem statusKept_of_or {s t : State} {m : Word32} (h : t.status = s.status ||| m) : StatusKept s t := by
  intro b hb
  rw [h, BitVec.getLsbD_or, hb, Bool.true_or]

theorem runWord_statusKept (w : CmdWord) (s : State) : ∃ t, runWord w s = .next t ∧ StatusKept s t := by
  cases h : decode w with
  | ok i =>
    obtain ⟨t, ht, hst⟩ := exec_status i s
    exact ⟨t, (runWord_ok h s).trans ht, hst.elim statusKept_of_eq statusKept_of_or⟩
  | error c => exact ⟨_, runWord_error h s, statusKept_of_or (raiseEvent_status .ill s)⟩

theorem step_statusKept {s : State} (h : s.input.head? ≠ some .reset) : ∃ t, step s = .next t ∧ StatusKept s t := by
  match hin : s.input with
  | [] => exact ⟨s, step_waiting hin, fun _ hb => hb⟩
  | .command w :: rest =>
    rw [step_command hin]
    exact runWord_statusKept w { s with input := rest }
  | .take :: rest => exact ⟨_, step_take hin, statusKept_of_eq rfl⟩
  | .reset :: rest => exact absurd (congrArg List.head? hin) h

theorem statusKept_of_step {s t : State} (hstep : step s = .next t) (h : s.input.head? ≠ some .reset) :
    StatusKept s t := by
  obtain ⟨t', ht', hkept⟩ := step_statusKept h
  rwa [Host.Outcome.next.inj (ht'.symm.trans hstep)] at hkept

/-- Settles O8: an illegal word only raises ILL, and bit 0 is one of the status bits that a step keeps. -/
theorem illegalWordSetsIllOnly : Obligations.IllegalWordSetsIllOnly :=
  ⟨fun _ _ _ _ hin hw => (step_command hin).trans (runWord_error hw _),
    fun _ _ hstep h => statusKept_of_step hstep h 0⟩

/-- Settles O50: a command raises CV at most and an illegal word ILL alone, both by setting bits of `STATUS`. -/
theorem statusBitsAreSticky : Obligations.StatusBitsAreSticky := by
  refine ⟨fun i s t ht => ?_, fun w c s t hw ht => ?_, fun s t => statusKept_of_step⟩
  · obtain ⟨t', ht', hst⟩ := exec_status i s
    rwa [Host.Outcome.next.inj (ht'.symm.trans ht)] at hst
  · rw [← Host.Outcome.next.inj ((runWord_error hw s).symm.trans ht)]
    exact raiseEvent_status .ill s

end Sys2Proof.Proofs
end

section
/-! PROOFS. Reset (spec/70_reset_and_hazards.md R400 to R402): the reset step, and what the reset state gives. -/

namespace Sys2Proof.Proofs

open Sys2Proof.Machine Sys2Proof.Laws

/-! ### The reset input -/

theorem step_reset {s : State} {rest : List HostInput} (h : s.input = .reset :: rest) :
    step s = .next (assertReset { s with input := rest }) := by
  unfold step; rw [h]

/-- Settles O9: the reset input's case of `step` builds the reset state of the same parameters. -/
theorem resetInputGivesResetValues : Obligations.ResetInputGivesResetValues := fun _ _ h =>
  ⟨_, step_reset h, assertReset_cfg _, List.length_replicate, fun _ => List.eq_of_mem_replicate, assertReset_patch _,
    assertReset_status _, assertReset_resp _⟩

/-! ### A pool of idle voices is silent (R203) -/

section IdleVoices

variable {c : Config} {p : Patch}

theorem stepped_of_idle {v : Voice} (h : v.active = false) : stepped c p v = v :=
  if_neg (by simp [h])

theorem sampleOf_of_idle {v : Voice} (h : v.active = false) (j : Nat) : sampleOf c p j v = posZero :=
  if_neg (by simp [h])

/-- The sum of the idle voices' samples stays at `+0.0`, where it starts. -/
theorem mixOf_of_idle {vs : List Voice} (h : ∀ v ∈ vs, v.active = false) : mixOf c p vs = posZero := by
  refine List.foldlRecOn (motive := (· = posZero)) _ fadd rfl fun acc hacc x hx => ?_
  obtain ⟨j, hj, rfl⟩ := List.mem_mapIdx.mp hx
  rw [hacc, sampleOf_of_idle (h _ (List.getElem_mem hj))]
  decide

theorem exec_sample_of_idle {s : State} (h : ∀ v ∈ s.voices, v.active = false) :
    exec .sample s = .next { s with resp := s.resp ++ [posZero] } := by
  have hvoices : s.voices.map (stepped s.cfg s.patch) = s.voices :=
    (List.map_congr_left fun v hv => stepped_of_idle (h v hv)).trans (List.map_id _)
  rw [exec_sample_eq, hvoices, mixOf_of_idle h]

end IdleVoices

/-! ### The reset state -/

/-- A voice at reset is at the start of a fade from `+0.0` (R124, R130). -/
theorem reset_voice_fades_from_zero {c : Config} (hc : ConfigWf c) (p : Patch) :
    ampAt c p Voice.reset = posZero ∧ envState c p Voice.reset = .retriggerFade := by
  have ht : tOf c Voice.reset.n = posZero := tOf_zero hc
  have hfade : ampFade Voice.reset posZero = posZero := by decide
  obtain ⟨hamp, hstate⟩ := fade_branch (c := c) (p := p) (v := Voice.reset) rfl (by rw [ht]; decide)
  rw [ht, hfade] at hamp
  exact ⟨hamp, hstate⟩

/-- Settles O55: every voice is a voice at reset, which is idle and at the start of a fade from `+0.0`. -/
theorem resetStateIsSilent : Obligations.ResetStateIsSilent := by
  intro c hc
  have hreset : ∀ v ∈ (State.resetOf c).voices, v = Voice.reset := fun _ => List.eq_of_mem_replicate
  have hidle : ∀ v ∈ (State.resetOf c).voices, v.active = false := fun v hv => by rw [hreset v hv]; rfl
  refine ⟨inv_resetOf hc, exec_sample_of_idle hidle, fun v hv => ⟨hidle v hv, ?_⟩⟩
  rw [hreset v hv]
  exact reset_voice_fades_from_zero hc _

end Sys2Proof.Proofs
end

section
/-! PROOFS. Infinite durations (spec/70_reset_and_hazards.md R410).  Elapsed time is finite, so it never reaches an infinite duration,
and its ratio to one is `+0.0`: the release takes nothing off, the glide adds nothing, and the attack does not rise. -/

namespace Sys2Proof.Proofs

open Sys2Proof.Machine Sys2Proof.Laws

theorem fle_inf_of_finite {d x : F32} (hd : d.toNat = infMag) (hx : x.toNat < infMag) : fle d x = false := by
  rw [fle_nonneg hd.le hx.le, hd]
  exact decide_eq_false hx.not_ge

/-! ### Release -/

section Release

variable {c : Config} {p : Patch} (hc : ConfigWf c) (hinf : p.release.toNat = infMag)
include hc hinf

theorem ampAt_of_infinite_release {v : Voice} (hrel : v.rel = true) (hamp : v.relAmp.toNat < infMag) :
    ampAt c p v = v.relAmp := by
  have hratio : ratio (tRel c v) p.release = posZero := ratio_infinite (tOf_lt_inf hc _) hinf
  have hfactor : fsub one posZero = one := by decide
  rw [(release_branch hrel).1, ampRelease, hratio, hfactor, fmul_one_right hamp]

theorem stepped_active_of_infinite_release (v : Voice) : (stepped c p v).active = v.active := by
  unfold stepped
  split_ifs with hactive
  · simp [fle_inf_of_finite hinf (tOf_lt_inf hc _), hactive]
  · rfl

end Release

/-- A sample step writes neither the release flag, nor the captured amplitude, nor the glide's origin. -/
theorem stepped_keeps (c : Config) (p : Patch) (v : Voice) :
    (stepped c p v).rel = v.rel ∧ (stepped c p v).relAmp = v.relAmp ∧ (stepped c p v).start = v.start := by
  unfold stepped
  split_ifs <;> exact ⟨rfl, rfl, rfl⟩

/-! ### Glide -/

theorem magOf_fmul_posZero {a : F32} (ha : isFinite a = true) : magOf (fmul a posZero) = 0 := by
  have hzero : unitsOfMag (magOf posZero) = 0 := by decide
  rw [fmul_finite ha (by decide), magOf_pack _ (roundMag_lt _ _), hzero, Nat.mul_zero, roundMag_zero]

/-- Adding a zero of either sign changes no non-negative finite value. -/
theorem fadd_zero_right {a z : F32} (ha : a.toNat < infMag) (hz : magOf z = 0) : fadd a z = a := by
  have hfin := isFinite_of_lt ha
  have hzfin : isFinite z = true := by rw [isFinite_iff_magOf, hz]; decide
  have hunits : unitsOf a + unitsOf z = unitsOf a := by simp [unitsOf, hz, unitsOfMag]
  have hrank : rankOf (fadd a z) = rankOf a := by
    rw [rankOf_fadd hfin hzfin, hunits, roundedRank_unitsOf hfin]
  have hnonneg : (fadd a z).toNat ≤ infMag := by
    refine (nonneg_iff _).mp ⟨le_fadd_of_le_units hfin hzfin (by decide) ?_, fadd_ne_negZero (.inl ?_)⟩
    · rw [hunits, unitsOf_nonneg ha.le, unitsOf_nonneg (by decide)]
      exact Int.natCast_nonneg _
    · exact ((nonneg_iff a).mpr ha.le).2
  rw [rankOf_nonneg hnonneg, rankOf_nonneg ha.le] at hrank
  exact BitVec.eq_of_toNat_eq (Int.ofNat.inj hrank)

theorem clampF_of_range {x hi : F32} (hx : x.toNat ≤ hi.toNat) (hhi : hi.toNat ≤ infMag) :
    clampF x posZero hi = x := by
  have hlow : flt x posZero = false := not_below_zero_of_nonneg (hx.trans hhi)
  have hhigh : flt hi x = false := by
    rw [flt_nonneg hhi (hx.trans hhi)]; exact decide_eq_false hx.not_gt
  simp [clampF, hlow, hhigh]

theorem frequencyAfter_of_infinite_glide {c : Config} {p : Patch} {v : Voice} (hc : ConfigWf c) (hv : VoiceOk c v)
    (hinf : p.glide.toNat = infMag) : frequencyAfter c p v = v.start := by
  have hstart : v.start.toNat < infMag := hv.start.trans_lt (nyq_lt_inf hc)
  have hratio : ratio (tOf c v.n) p.glide = posZero := ratio_infinite (tOf_lt_inf hc _) hinf
  have hzero := magOf_fmul_posZero (isFinite_fsub_of_nonneg hv.endFreq_lt_inf hstart)
  rw [frequencyAfter, hratio, fadd_zero_right hstart hzero]
  exact clampF_of_range hv.start (nyq_lt_inf hc).le

theorem stepped_oscFreq_of_active {c : Config} {p : Patch} {v : Voice} (h : v.active = true) :
    (stepped c p v).oscFreq = frequencyAfter c p v := by
  unfold stepped; rw [if_pos h]

/-! ### Attack -/

/-- The attack that starts at `RT` has no end, and has not risen. -/
theorem ampAt_of_infinite_attack {c : Config} {p : Patch} {v : Voice} (hc : ConfigWf c)
    (hinf : p.attack.toNat = infMag) (hrel : v.rel = false) (hpast : flt rt (tOf c v.n) = true) :
    ampAt c p v = posZero := by
  have ht := tOf_lt_inf hc v.n
  have hend : attackEnd p = p.attack := fadd_inf_right (by decide) hinf
  have hattack : fle (tOf c v.n) (attackEnd p) = true := by
    rw [hend, fle_nonneg ht.le hinf.le, hinf]; exact decide_eq_true ht.le
  rw [flt_nonneg (by decide) ht.le, decide_eq_true_eq] at hpast
  have hfade : fle (tOf c v.n) rt = false := by
    rw [fle_nonneg ht.le (by decide)]; exact decide_eq_false hpast.not_ge
  rw [(attack_branch hrel hfade hattack).1]
  exact ratio_infinite ((fsub_le_left ht hpast.le).trans_lt ht) hinf

/-- Settles O38: each clause is one infinite duration's lemma, for a voice and for what SAMPLE makes of it. -/
theorem infiniteDurationsNeverEnd : Obligations.InfiniteDurationsNeverEnd := by
  intro s hs
  obtain ⟨hc, -, hvs, -, -⟩ := (inv_iff s).mp hs
  refine ⟨_, exec_sample_eq s, fun j v w hv hw => ?_⟩
  obtain rfl : stepped s.cfg s.patch v = w := by simpa [List.getElem?_map, hv] using hw
  have hok := hvs v (List.mem_of_getElem? hv)
  have hamp : v.relAmp.toNat < infMag := hok.relAmp.trans_lt (by decide)
  obtain ⟨hrel_kept, hamp_kept, hstart_kept⟩ := stepped_keeps s.cfg s.patch v
  have toNat_of_inf {d : F32} (h : d = 0x7F800000#32) : d.toNat = infMag := by rw [h]; rfl
  refine ⟨fun hinf => ?_, fun hinf hactive => ?_, fun hinf hrel hpast => ?_⟩
  · refine ⟨stepped_active_of_infinite_release hc (toNat_of_inf hinf) v, fun hrel => ⟨?_, ?_⟩⟩
    · exact ampAt_of_infinite_release hc (toNat_of_inf hinf) hrel hamp
    · rw [← hamp_kept] at hamp ⊢
      exact ampAt_of_infinite_release hc (toNat_of_inf hinf) (hrel_kept.trans hrel) hamp
  · rw [stepped_oscFreq_of_active hactive]
    exact ⟨frequencyAfter_of_infinite_glide hc hok (toNat_of_inf hinf), hstart_kept⟩
  · rw [← rt_bits] at hpast
    exact ampAt_of_infinite_attack hc (toNat_of_inf hinf) hrel hpast

end Sys2Proof.Proofs
end

section
/-! PROOFS. Decoding and encoding (spec/30_encoding.md R71 to R77).  A word with `RSV = 0` is the word of its three other fields, so
decoding and encoding are compared field by field, one lemma for each check of the decoder. -/

namespace Sys2Proof.Proofs

open Sys2Proof.Machine Sys2Proof.Laws

/-! ### Decoding the word of given fields -/

theorem decode_cmdWord_readReg (sel : BitVec 8) : decode (cmdWord 0x20#8 sel 0#32) = readRegOf sel.toNat := by
  simp [decode, withoutOpd]

theorem decode_cmdWord_readVoice (sel : BitVec 8) (opd : BitVec 32) :
    decode (cmdWord 0x21#8 sel opd) = readVoiceOf sel.toNat opd.toNat := by
  simp [decode]

/-- A READ_VOICE index that fits the operand field is read back as it was (R72). -/
theorem decode_cmdWord_readVoice_of_fits {idx : Nat} (h : Instr.indexFits idx = true) (sel : BitVec 8) :
    decode (cmdWord 0x21#8 sel (BitVec.ofNat 32 idx)) = readVoiceOf sel.toNat idx := by
  rw [decode_cmdWord_readVoice, BitVec.toNat_ofNat, Nat.mod_eq_of_lt (of_decide_eq_true h)]

theorem decode_encode {i : Instr} (h : WellFormed i) : decode (encode i) = .ok i := by
  cases i with
  | play _ | stop _ | setAttack _ | setDecay _ | setSustain _ | setRelease _ | setGlide _ =>
    simp [encode, decode, withoutSel]
  | sample => simp [encode, decode, withoutOpd]
  | readRegStatus | readRegAttack | readRegDecay | readRegSustain | readRegRelease | readRegGlide | readRegGain
  | readRegNvoices | readRegSr => exact decode_cmdWord_readReg _
  | readVoiceActive _ | readVoicePhase _ | readVoiceOscFreq _ | readVoiceStart _ | readVoiceEnd _ | readVoiceN _
  | readVoiceRel _ | readVoiceNRel _ | readVoiceRelAmp _ | readVoiceRtgAmp _ | readVoiceWave _ | readVoiceState _
  | readVoiceAmp _ => exact decode_cmdWord_readVoice_of_fits h _

/-- Settles O1: the fields of an encoded command are the ones `encode` put there, and the decoder selects by them. -/
theorem decodeOfEncodeIsInstr : Obligations.DecodeOfEncodeIsInstr := fun _ => decode_encode

/-! ### What each check of the decoder accepts -/

theorem withoutSel_ok {w : CmdWord} {i j : Instr} (h : withoutSel w i = .ok j) : selOf w = 0#8 ∧ i = j := by
  unfold withoutSel at h
  split_ifs at h with hsel
  exact ⟨hsel, Except.ok.inj h⟩

theorem withoutOpd_ok {w : CmdWord} {r : Except IllegalCause Instr} {j : Instr} (h : withoutOpd w r = .ok j) :
    opdOf w = 0#32 ∧ r = .ok j := by
  unfold withoutOpd at h
  split_ifs at h with hopd
  exact ⟨hopd, h⟩

theorem readRegOf_ok {sel : BitVec 8} {i : Instr} (h : readRegOf sel.toNat = .ok i) :
    WellFormed i ∧ encode i = cmdWord 0x20#8 sel 0#32 := by
  unfold readRegOf at h
  split at h <;> rename_i hsel <;> cases h
  all_goals exact ⟨rfl, congrArg (cmdWord 0x20#8 · 0#32) (BitVec.eq_of_toNat_eq hsel.symm)⟩

theorem readVoiceOf_ok {sel : BitVec 8} {opd : BitVec 32} {i : Instr} (h : readVoiceOf sel.toNat opd.toNat = .ok i) :
    WellFormed i ∧ encode i = cmdWord 0x21#8 sel opd := by
  have hfits : Instr.indexFits opd.toNat = true := decide_eq_true opd.isLt
  have hopd : BitVec.ofNat 32 opd.toNat = opd := by simp
  unfold readVoiceOf at h
  split at h <;> rename_i hsel <;> cases h
  all_goals
    refine ⟨hfits, ?_⟩
    rw [encode, hopd]
    exact congrArg (cmdWord 0x21#8 · opd) (BitVec.eq_of_toNat_eq hsel.symm)

theorem cmdWord_eq_of_fields {w : CmdWord} {opc : Nat} (hrsv : rsvOf w = 0#16) (hopc : (opcOf w).toNat = opc) :
    cmdWord (BitVec.ofNat 8 opc) (selOf w) (opdOf w) = w := by
  have hself : BitVec.ofNat 8 (opcOf w).toNat = opcOf w := by simp
  rw [← hopc, hself]
  exact cmdWord_of_fields hrsv

/-- A command without a selector has the word of its opcode and operand (R74). -/
theorem encode_of_withoutSel_ok {w : CmdWord} {opc : Nat} {c : F32 → Instr} {i : Instr} (hrsv : rsvOf w = 0#16)
    (hopc : (opcOf w).toNat = opc) (hwf : ∀ x, WellFormed (c x))
    (hc : ∀ x, encode (c x) = cmdWord (BitVec.ofNat 8 opc) 0#8 x) (h : withoutSel w (c (opdOf w)) = .ok i) :
    WellFormed i ∧ encode i = w := by
  obtain ⟨hsel, rfl⟩ := withoutSel_ok h
  rw [hc, ← hsel]
  exact ⟨hwf _, cmdWord_eq_of_fields hrsv hopc⟩

theorem encode_of_sample_ok {w : CmdWord} {i : Instr} (hrsv : rsvOf w = 0#16) (hopc : (opcOf w).toNat = 0x03)
    (h : (if selOf w = 0 then withoutOpd w (.ok .sample) else .error .selNonzero) = .ok i) :
    WellFormed i ∧ encode i = w := by
  split_ifs at h with hsel
  obtain ⟨hopd, hi⟩ := withoutOpd_ok h
  obtain rfl := Except.ok.inj hi
  refine ⟨rfl, ?_⟩
  have hw := cmdWord_eq_of_fields hrsv hopc
  rwa [hsel, hopd] at hw

theorem encode_of_decode_ok {w : CmdWord} {i : Instr} (h : decode w = .ok i) : WellFormed i ∧ encode i = w := by
  unfold decode at h
  by_cases hrsv : rsvOf w = 0
  case neg =>
    rw [if_pos hrsv] at h
    cases h
  rw [if_neg (not_not.mpr hrsv)] at h
  split at h <;> rename_i hopc
  case h_3 => exact encode_of_sample_ok hrsv hopc h
  case h_9 =>
    obtain ⟨hopd, hread⟩ := withoutOpd_ok h
    rw [← cmdWord_eq_of_fields hrsv hopc, hopd]
    exact readRegOf_ok hread
  case h_10 =>
    rw [← cmdWord_eq_of_fields hrsv hopc]
    exact readVoiceOf_ok h
  case h_11 => cases h
  case h_1 | h_2 | h_4 | h_5 | h_6 | h_7 | h_8 =>
    exact encode_of_withoutSel_ok hrsv hopc (fun _ => rfl) (fun _ => rfl) h

/-- Settles O2: what the decoder has checked are the fields that `encode` writes. -/
theorem encodeOfDecodeIsWord : Obligations.EncodeOfDecodeIsWord := fun _ _ => encode_of_decode_ok

/-- Settles O4: the decoder run on each word. -/
theorem writtenWordsDecode : Obligations.WrittenWordsDecode := by
  unfold Obligations.WrittenWordsDecode
  decide

/-! ### Bytes (spec/20_memory.md R52) -/

theorem extractByte_toNat {n : Nat} (w : BitVec n) (j : Nat) :
    (w.extractLsb' (8 * j) 8).toNat = w.toNat / 256 ^ j % 256 := by
  rw [BitVec.extractLsb'_toNat, Nat.shiftRight_eq_div_pow, pow_mul]; rfl

theorem leNat_append (as bs : List Byte) : leNat (as ++ bs) = leNat as + 256 ^ as.length * leNat bs := by
  induction as with
  | nil => simp [leNat]
  | cons a as ih => simp only [List.cons_append, leNat, ih, List.length_cons, pow_succ]; ring

/-- The first `k` bytes of a word make its number modulo `256 ^ k`. -/
theorem leNat_bytes {n : Nat} (w : BitVec n) (k : Nat) :
    leNat ((List.range k).map fun j => w.extractLsb' (8 * j) 8) = w.toNat % 256 ^ k := by
  induction k with
  | zero => simp [leNat, Nat.mod_one]
  | succ k ih =>
    rw [List.range_succ, List.map_append, leNat_append, ih, List.length_map, List.length_range]
    simp only [List.map_cons, List.map_nil, leNat, extractByte_toNat, Nat.mul_zero, Nat.add_zero]
    exact Nat.mod_pow_succ.symm

/-- Digit `j` of the number is byte `j`. -/
theorem leNat_digit {bs : List Byte} {j : Nat} {b : Byte} (h : bs[j]? = some b) :
    leNat bs / 256 ^ j % 256 = b.toNat := by
  induction bs generalizing j with
  | nil => cases h
  | cons a bs ih =>
    have ha := a.isLt
    cases j with
    | zero =>
      obtain rfl : a = b := Option.some.inj h
      rw [leNat, pow_zero]; omega
    | succ j =>
      have hrest : leNat (a :: bs) / 256 = leNat bs := by rw [leNat]; omega
      rw [pow_succ', ← Nat.div_div_eq_div_mul, hrest]
      exact ih h

theorem leNat_lt (bs : List Byte) : leNat bs < 256 ^ bs.length := by
  induction bs with
  | nil => exact Nat.one_pos
  | cons b bs ih =>
    have hb := b.isLt
    rw [leNat, List.length_cons, pow_succ]; omega

theorem getElem?_bytes {n k j : Nat} (w : BitVec n) (h : j < k) :
    ((List.range k).map fun j => w.extractLsb' (8 * j) 8)[j]? = some (w.extractLsb' (8 * j) 8) := by
  rw [List.getElem?_map, List.getElem?_range h]; rfl

theorem cmdOfBytes_of_length {bs : List Byte} (h : bs.length = 8) : cmdOfBytes bs = some (BitVec.ofNat 64 (leNat bs)) :=
  if_pos h

theorem length_cmdBytes (w : CmdWord) : (cmdBytes w).length = 8 := (List.length_map _).trans List.length_range

theorem length_respBytes (w : Word32) : (respBytes w).length = 4 := (List.length_map _).trans List.length_range

theorem cmdOfBytes_cmdBytes (w : CmdWord) : cmdOfBytes (cmdBytes w) = some w := by
  have hnum : leNat (cmdBytes w) = w.toNat := (leNat_bytes w 8).trans (Nat.mod_eq_of_lt w.isLt)
  rw [cmdOfBytes_of_length (length_cmdBytes w), hnum]
  simp

theorem cmdBytes_ofNat_leNat {bs : List Byte} (h : bs.length = 8) : cmdBytes (BitVec.ofNat 64 (leNat bs)) = bs := by
  have hlt : leNat bs < 2 ^ 64 := (leNat_lt bs).trans_eq (by rw [h]; rfl)
  have hnum : (BitVec.ofNat 64 (leNat bs)).toNat = leNat bs := by
    rw [BitVec.toNat_ofNat, Nat.mod_eq_of_lt hlt]
  generalize BitVec.ofNat 64 (leNat bs) = w at hnum ⊢
  refine List.ext_getElem ((length_cmdBytes w).trans h.symm) fun j hj hj' => BitVec.eq_of_toNat_eq ?_
  rw [← leNat_digit (List.getElem?_eq_getElem hj'), ← hnum, ← extractByte_toNat]
  simp [cmdBytes]

/-- Settles O5: a word and its list of bytes are the same number in base 256. -/
theorem bytesAreLittleEndian : Obligations.BytesAreLittleEndian :=
  ⟨fun w => ⟨cmdOfBytes_cmdBytes w, fun _ => getElem?_bytes w⟩,
    fun w => ⟨length_respBytes w, fun _ => getElem?_bytes w⟩,
    fun _ h => ⟨_, cmdOfBytes_of_length h, cmdBytes_ofNat_leNat h⟩⟩

/-! ### Text (spec/30_encoding.md R80, R81) -/

/-- Settles O6: the first two clauses are `AsmLine.words`; the text is assembled line by line. -/
theorem assemblerExpandsLines : Obligations.AssemblerExpandsLines := by
  refine ⟨fun _ => rfl, fun _ => rfl, ?_⟩
  decide

end Sys2Proof.Proofs
end

section
/-! PROOFS. Rounding of each operator (spec/00_scope.md R11, R12).  Each operator packs a sign with a rounded magnitude, so its clause is
`roundsTo_pack` for the exact value written with that sign. -/

namespace Sys2Proof.Proofs

open Sys2Proof.Machine Sys2Proof.Laws

/-! ### Signs of exact values -/

theorem withSign_natAbs (u : Int) : withSign (decide (u < 0)) u.natAbs = u := by
  rcases lt_or_ge u 0 with h | h
  · rw [decide_eq_true h, withSign_true]; omega
  · rw [decide_eq_false h.not_gt, withSign_false]; omega

theorem withSign_mul (s s' : Bool) (m n : Nat) : withSign s m * withSign s' n = withSign (s != s') (m * n) := by
  cases s <;> cases s' <;> simp [withSign]

theorem sign_withSign (s : Bool) {n : Nat} (h : n ≠ 0) : (withSign s n).sign = withSign s 1 := by
  have hsign : (n : Int).sign = 1 := Int.sign_natCast_of_ne_zero h
  cases s
  · rw [withSign_false, hsign]; rfl
  · rw [withSign_true, Int.sign_neg, hsign]; rfl

theorem natAbs_unitsOf (a : F32) : (unitsOf a).natAbs = unitsOfMag (magOf a) := by
  have h := abs_unitsOf a
  rw [Int.abs_eq_natAbs] at h
  exact_mod_cast h

/-- A zero of either sign is 0 rounded. -/
theorem roundsTo_zero (s : Bool) : RoundsTo 0 1 (pack s 0) := by
  have h := roundsTo_pack s (n := 0) one_pos
  have hzero : withSign s 0 = 0 := by cases s <;> rfl
  rwa [hzero, roundMag_zero] at h

/-! ### The operators -/

section Operators

variable {a b : F32} (ha : isFinite a = true) (hb : isFinite b = true)
include ha hb

theorem roundsTo_fadd : RoundsTo (unitsOf a + unitsOf b) 1 (fadd a b) := by
  rw [fadd_finite ha hb]
  generalize unitsOf a + unitsOf b = u
  split_ifs with hzero hsigns
  · rw [hzero]; exact roundsTo_zero true
  · rw [hzero]; exact roundsTo_zero false
  · have h := roundsTo_pack (decide (u < 0)) (n := u.natAbs) one_pos
    rwa [withSign_natAbs] at h

theorem roundsTo_fsub : RoundsTo (unitsOf a - unitsOf b) 1 (fsub a b) := by
  have h := roundsTo_fadd ha ((isFinite_fneg b).trans hb)
  rwa [unitsOf_fneg, ← sub_eq_add_neg] at h

theorem roundsTo_fmul : RoundsTo (unitsOf a * unitsOf b) (2 ^ 149) (fmul a b) := by
  rw [fmul_finite ha hb, unitsOf_eq_withSign, unitsOf_eq_withSign, withSign_mul]
  exact roundsTo_pack _ (by positivity)

theorem roundsTo_fdiv (h0 : unitsOf b ≠ 0) :
    RoundsTo (unitsOf a * 2 ^ 149 * (unitsOf b).sign) (unitsOf b).natAbs (fdiv a b) := by
  have hunits : unitsOfMag (magOf b) ≠ 0 := by rwa [← natAbs_unitsOf, Int.natAbs_ne_zero]
  have hmag : magOf b ≠ 0 := by
    intro hz
    rw [hz] at hunits
    exact hunits unitsOfMag_zero
  have hscale : (2 : Int) ^ 149 = withSign false (2 ^ 149) := by
    rw [withSign_false]; norm_cast
  have hnum : unitsOf a * 2 ^ 149 * (unitsOf b).sign =
      withSign (signOf a != signOf b) (unitsOfMag (magOf a) * 2 ^ 149) := by
    rw [unitsOf_eq_withSign a, unitsOf_eq_withSign b, sign_withSign _ hunits, hscale, withSign_mul, withSign_mul,
      Nat.mul_one, Bool.bne_false]
  rw [fdiv_finite ha hb hmag, hnum, natAbs_unitsOf]
  exact roundsTo_pack _ (Nat.pos_of_ne_zero hunits)

end Operators

/-- Settles O13: a sum is its sign and its rounded magnitude, a zero sum of either sign included; `fsub` is `fadd` of the opposite. -/
theorem addAndSubRoundToNearestEven : Obligations.AddAndSubRoundToNearestEven := fun _ _ ha hb =>
  ⟨roundsTo_fadd ha hb, roundsTo_fsub ha hb⟩

/-- Settles O14: the sign of a product is that of its factors, and its magnitude is rounded once. -/
theorem mulRoundsToNearestEven : Obligations.MulRoundsToNearestEven := fun _ _ => roundsTo_fmul

/-- Settles O15: as the product, with the divisor's magnitude as the denominator. -/
theorem divRoundsToNearestEven : Obligations.DivRoundsToNearestEven := fun _ _ => roundsTo_fdiv

/-! ### Integers and the sample rate -/

theorem isFinite_toF32 {n : Nat} (h : n ≤ 2 ^ 24) : isFinite (toF32 n) = true := by
  refine isFinite_of_lt ?_
  rw [toF32_toNat, roundMag_lt_inf_iff one_pos]
  omega

/-- Settles O16: an integer is its own magnitude, and up to `2^24` it needs no rounding. -/
theorem toF32RoundsToNearestEven : Obligations.ToF32RoundsToNearestEven :=
  ⟨roundsTo_toF32, fun _ h => ⟨isFinite_toF32 h, unitsOf_toF32 h⟩⟩

/-- `NYQ` has one less in the exponent field than `SRf`, which is half the value (R16). -/
theorem two_mul_unitsOf_nyq {c : Config} (hc : ConfigWf c) : 2 * unitsOf (nyq c) = unitsOf (srf c) := by
  have hlarge : 2 ^ 24 ≤ (srf c).toNat := (by decide : 2 ^ 24 ≤ one.toNat).trans (srf_range hc).1
  have hhalf := unitsOfMag_half hlarge
  rw [unitsOf_nonneg (nyq_lt_inf hc).le, unitsOf_nonneg (srf_lt_inf hc).le, nyq_toNat hc]
  exact_mod_cast hhalf

/-- Settles O20: the rate is an integer up to `2^24`, so it is exact, and halving it is. -/
theorem nyquistIsExactlyHalfTheRate : Obligations.NyquistIsExactlyHalfTheRate := by
  intro c hc
  have ⟨_, ⟨_, hsr⟩, _⟩ := hc
  exact ⟨isFinite_toF32 hsr, unitsOf_toF32 hsr, isFinite_of_lt (nyq_lt_inf hc), two_mul_unitsOf_nyq hc⟩

end Sys2Proof.Proofs
end

section
/-! PROOFS. What a step and a command can do (spec/10_state.md R22, R25 to R30; spec/60_exceptions.md R300).  `Effect` lists once what
each kind of command answers; the statements about frames, responses and flags are read off it. -/

namespace Sys2Proof.Proofs

open Sys2Proof.Machine Sys2Proof.Laws

/-! ### Steps -/

/-- Settles O56: each kind of input has its lemma; the step that the statement is given is the one they speak of. -/
theorem stepKeepsTheInvariant : Obligations.StepKeepsTheInvariant := by
  intro s t hs hstep
  obtain ⟨t', hstep', ht⟩ := step_inv hs
  rwa [Host.Outcome.next.inj (hstep'.symm.trans hstep)] at ht

/-- Settles O7: the command input's case of `step`, and the legal word's case of `runWord`. -/
theorem stepRunsDecodedCommand : Obligations.StepRunsDecodedCommand := fun _ _ _ _ hin hw =>
  (step_command hin).trans (runWord_ok hw _)

/-- Settles O10: `assertReset` writes every field but the inputs. -/
theorem resetKeepsInputsToCome : Obligations.ResetKeepsInputsToCome := fun _ _ => step_reset

/-- Settles O12: `takeResponse` keeps the tail of the stream, which of an empty stream is empty. -/
theorem takeRemovesOldestResponse : Obligations.TakeRemovesOldestResponse := by
  intro s rest hin
  rw [step_take hin]
  refine ⟨fun r rs hresp => ?_, fun hresp => ?_⟩
  · simp only [takeResponse, hresp, List.tail_cons]
  · simp only [takeResponse, hresp, List.tail_nil]

/-- Settles O49: every case of `step` and of `exec` answers a next state. -/
theorem nothingStopsTheBlock : Obligations.NothingStopsTheBlock :=
  ⟨fun s => (step_cfg s).imp fun _ => And.left, fun i s => (exec_cfg i s).imp fun _ => And.left⟩

/-- Settles O54: the model's own parameters are in range. -/
theorem resetStateMeetsTheInvariant : Obligations.ResetStateMeetsTheInvariant :=
  ⟨fun _ => inv_resetOf, inv_resetOf (by decide)⟩

/-! ### What each command answers -/

/-- No patch register but the setter's own is changed (R25). -/
structure OtherRegistersKept (i : Instr) (p q : Patch) : Prop where
  attack : (∀ x, i ≠ .setAttack x) → q.attack = p.attack
  decay : (∀ x, i ≠ .setDecay x) → q.decay = p.decay
  sustain : (∀ x, i ≠ .setSustain x) → q.sustain = p.sustain
  release : (∀ x, i ≠ .setRelease x) → q.release = p.release
  glide : (∀ x, i ≠ .setGlide x) → q.glide = p.glide

theorem otherRegistersKept_refl (i : Instr) (p : Patch) : OtherRegistersKept i p p :=
  ⟨fun _ => rfl, fun _ => rfl, fun _ => rfl, fun _ => rfl, fun _ => rfl⟩

/-- What a command may answer, by its kind: the state after it, in terms of the state before it. -/
inductive Effect (s : State) : Instr → State → Prop
  | play (x : F32) : Effect s (.play x) (updateVoice (selectVoice x s.voices) (triggered s.cfg s.patch x) s)
  | playRejected (x : F32) : Effect s (.play x) (raiseEvent .cv s)
  | stop (x : F32) : Effect s (.stop x) { s with voices := s.voices.map (stopped s.cfg s.patch x) }
  | sample : Effect s .sample { s with
      voices := s.voices.map (stepped s.cfg s.patch)
      resp := s.resp ++ [mixOf s.cfg s.patch s.voices] }
  | set {i : Instr} (hi : isSetter i = true) (q : Patch) (hq : OtherRegistersKept i s.patch q) (cv : Bool) :
      Effect s i { s with patch := q, status := statusAfter cv s.status }
  | read {i : Instr} (hi : isRead i = true) (w : Word32) : Effect s i (emit w s)
  | readOutside {i : Instr} {k : Nat} (hk : voiceRead i = some k) (houtside : s.cfg.nvoices ≤ k) :
      Effect s i (raiseEvent .cv s)

theorem effect_play (x : F32) (s : State) : ∃ t, exec (.play x) s = .next t ∧ Effect s (.play x) t := by
  by_cases hx : playable x = true
  · exact ⟨_, exec_play_of_playable hx s, .play x⟩
  · exact ⟨_, exec_play_of_not_playable hx s, .playRejected x⟩

/-- A setter's patch is the old one with one register written, or the old one. -/
theorem effect_setPatch {i : Instr} (hi : isSetter i = true) {write : F32 → Patch → Patch} {s : State}
    (hwrite : ∀ y, OtherRegistersKept i s.patch (write y s.patch)) (r : Option F32 × Bool) :
    Effect s i (setPatch write r s) := by
  rw [setPatch_eq]
  obtain ⟨_ | y, cv⟩ := r
  · exact .set hi _ (otherRegistersKept_refl i s.patch) cv
  · exact .set hi _ (hwrite y) cv

theorem effect_readVoice {i : Instr} (hi : isRead i = true) {k : Nat} (hk : voiceRead i = some k) (word : State → Word32)
    (s : State) : Effect s i (readVoice k word s) := by
  rcases Nat.lt_or_ge k s.cfg.nvoices with h | h
  · rw [readVoice_inside h]; exact .read hi _
  · rw [readVoice_outside h]; exact .readOutside hk h

theorem exec_effect (i : Instr) (s : State) : ∃ t, exec i s = .next t ∧ Effect s i t := by
  cases i with
  | play x => exact effect_play x s
  | stop x => exact ⟨_, exec_stop_eq x s, .stop x⟩
  | sample => exact ⟨_, exec_sample_eq s, .sample⟩
  | setAttack x =>
    exact ⟨_, rfl, effect_setPatch rfl (fun _ => { otherRegistersKept_refl _ _ with attack := fun h => absurd rfl (h x) }) _⟩
  | setDecay x =>
    exact ⟨_, rfl, effect_setPatch rfl (fun _ => { otherRegistersKept_refl _ _ with decay := fun h => absurd rfl (h x) }) _⟩
  | setSustain x =>
    exact ⟨_, rfl, effect_setPatch rfl (fun _ => { otherRegistersKept_refl _ _ with sustain := fun h => absurd rfl (h x) }) _⟩
  | setRelease x =>
    exact ⟨_, rfl, effect_setPatch rfl (fun _ => { otherRegistersKept_refl _ _ with release := fun h => absurd rfl (h x) }) _⟩
  | setGlide x =>
    exact ⟨_, rfl, effect_setPatch rfl (fun _ => { otherRegistersKept_refl _ _ with glide := fun h => absurd rfl (h x) }) _⟩
  | readRegStatus | readRegAttack | readRegDecay | readRegSustain | readRegRelease | readRegGlide | readRegGain
  | readRegNvoices | readRegSr => exact ⟨_, rfl, .read rfl _⟩
  | readVoiceActive _ | readVoicePhase _ | readVoiceOscFreq _ | readVoiceStart _ | readVoiceEnd _ | readVoiceN _
  | readVoiceRel _ | readVoiceNRel _ | readVoiceRelAmp _ | readVoiceRtgAmp _ | readVoiceWave _ | readVoiceState _
  | readVoiceAmp _ => exact ⟨_, rfl, effect_readVoice rfl rfl _ s⟩

theorem effect_of_exec {i : Instr} {s t : State} (h : exec i s = .next t) : Effect s i t := by
  obtain ⟨t', ht', heffect⟩ := exec_effect i s
  rwa [Host.Outcome.next.inj (ht'.symm.trans h)] at heffect

/-! ### The kinds of commands -/

theorem responds_of_isRead {i : Instr} : isRead i = true → responds i = true := by
  cases i <;> simp [isRead, responds]

theorem responds_of_isSetter {i : Instr} : isSetter i = true → responds i = false := by
  cases i <;> simp [isSetter, responds]

/-! ### Frames, read off the effects -/

section Effects

variable {i : Instr} {s t : State}

theorem Effect.keeps_configuration (h : Effect s i t) :
    t.cfg = s.cfg ∧ t.voices.length = s.voices.length ∧ t.input = s.input := by
  cases h with
  | play => exact ⟨rfl, List.length_modify _ _ _, rfl⟩
  | stop | sample => exact ⟨rfl, List.length_map _, rfl⟩
  | playRejected | set | read | readOutside => exact ⟨rfl, rfl, rfl⟩

theorem Effect.keeps_other_registers (h : Effect s i t) : OtherRegistersKept i s.patch t.patch := by
  cases h with
  | set hi q hq cv => exact hq
  | play | playRejected | stop | sample | read | readOutside => exact otherRegistersKept_refl _ s.patch

theorem Effect.keeps_voices (h : Effect s i t) (hi : writesVoices i = false) : t.voices = s.voices := by
  cases h with
  | play | playRejected | stop | sample => cases hi
  | set | read | readOutside => rfl

/-- What a command makes of one voice. -/
theorem Effect.voice_cases (h : Effect s i t) {j : Nat} {v w : Voice} (hv : s.voices[j]? = some v)
    (hw : t.voices[j]? = some w) :
    w = v ∨ (∃ x, i = .play x ∧ w = triggered s.cfg s.patch x v) ∨
      (∃ x, i = .stop x ∧ w = stopped s.cfg s.patch x v) ∨ (i = .sample ∧ w = stepped s.cfg s.patch v) := by
  cases h with
  | play x =>
    rw [updateVoice_voices, List.getElem?_modify, hv] at hw
    obtain rfl := Option.some.inj hw
    split_ifs
    · exact .inr (.inl ⟨x, rfl, rfl⟩)
    · exact .inl rfl
  | stop x =>
    rw [List.getElem?_map, hv] at hw
    exact .inr (.inr (.inl ⟨x, rfl, (Option.some.inj hw).symm⟩))
  | sample =>
    rw [List.getElem?_map, hv] at hw
    exact .inr (.inr (.inr ⟨rfl, (Option.some.inj hw).symm⟩))
  | playRejected | set | read | readOutside => exact .inl (Option.some.inj (hw.symm.trans hv))

/-- A command that responds appends one word, unless it is a READ_VOICE outside the pool (R29, R228). -/
theorem Effect.resp_cases (h : Effect s i t) :
    (responds i = true ∧ ∃ w, t.resp = s.resp ++ [w]) ∨
      (t.resp = s.resp ∧ (responds i = true → voiceRead i ≠ none)) := by
  cases h with
  | play | playRejected | stop => exact .inr ⟨rfl, nofun⟩
  | sample => exact .inl ⟨rfl, _, rfl⟩
  | set hi => exact .inr ⟨rfl, by simp [responds_of_isSetter hi]⟩
  | read hi => exact .inl ⟨responds_of_isRead hi, _, rfl⟩
  | readOutside hk => exact .inr ⟨rfl, by simp [hk]⟩

/-- CV is raised by PLAY, the setters, and READ_VOICE outside the pool alone (R303). -/
theorem Effect.status_cases (h : Effect s i t) :
    t.status = s.status ∨
      (t.status = s.status ||| 0x00000002#32 ∧ (∀ x, i ≠ .stop x) ∧
        (responds i = true → ∃ k, voiceRead i = some k ∧ s.cfg.nvoices ≤ k)) := by
  cases h with
  | play | stop | sample | read => exact .inl rfl
  | playRejected => exact .inr ⟨rfl, nofun, nofun⟩
  | set hi q hq cv =>
    cases cv with
    | false => exact .inl rfl
    | true =>
      refine .inr ⟨rfl, ?_, by simp [responds_of_isSetter hi]⟩
      rintro x rfl
      cases hi
  | readOutside hk houtside =>
    refine .inr ⟨rfl, ?_, fun _ => ⟨_, hk, houtside⟩⟩
    rintro x rfl
    cases hk

end Effects

/-! ### What STOP and SAMPLE leave of a voice -/

section VoiceFrames

variable (c : Config) (p : Patch) (x : F32) (v : Voice)

theorem stopped_frame : stopped c p x v = { v with
    rel := (stopped c p x v).rel, nRel := (stopped c p x v).nRel, relAmp := (stopped c p x v).relAmp } := by
  unfold stopped
  split_ifs <;> rfl

theorem stepped_frame : stepped c p v = { v with
    phase := (stepped c p v).phase, oscFreq := (stepped c p v).oscFreq, n := (stepped c p v).n,
    active := (stepped c p v).active } := by
  unfold stepped
  split_ifs <;> rfl

variable {v}

theorem stopped_of_rel (h : v.rel = true) : stopped c p x v = v :=
  if_neg (by simp [h])

end VoiceFrames

theorem stopped_active (c : Config) (p : Patch) (x : F32) (v : Voice) : (stopped c p x v).active = v.active := by
  rw [stopped_frame]

/-- Settles O51: a command that responds appends one word, or reads a voice outside the pool. -/
theorem onlyThreeCommandsRespond : Obligations.OnlyThreeCommandsRespond := by
  intro i s t ht
  rcases (effect_of_exec ht).resp_cases with ⟨hresponds, hword⟩ | ⟨hkept, hvoice⟩
  · exact ⟨by simp [hresponds], fun _ => .inr hword, fun _ _ => hword⟩
  · exact ⟨fun _ => hkept, fun _ => .inl hkept, fun hresponds hnone => absurd hnone (hvoice hresponds)⟩

/-- Settles O52: each frame is read off the command's effect. -/
theorem eachCommandWritesOnlyItsOwn : Obligations.EachCommandWritesOnlyItsOwn := by
  intro i s t ht
  have heffect := effect_of_exec ht
  obtain ⟨hattack, hdecay, hsustain, hrelease, hglide⟩ := heffect.keeps_other_registers
  refine ⟨heffect.keeps_configuration, ⟨hattack, hdecay, hsustain, hrelease, hglide⟩, heffect.keeps_voices,
    fun j v w hv hw => ?_, ?_, ?_⟩
  · rcases heffect.voice_cases hv hw with rfl | ⟨x, rfl, rfl⟩ | ⟨x, rfl, rfl⟩ | ⟨rfl, rfl⟩
    · exact ⟨fun _ _ => ⟨rfl, rfl⟩, fun _ _ => rfl, fun _ => rfl⟩
    · exact ⟨fun _ _ => ⟨rfl, rfl⟩, nofun, nofun⟩
    · exact ⟨nofun, fun _ _ => stopped_frame _ _ _ _, nofun⟩
    · exact ⟨nofun, nofun, fun _ => stepped_frame _ _ _⟩
  · rcases heffect.resp_cases with ⟨hresponds, w, hword⟩ | ⟨hkept, -⟩
    · exact ⟨by simp [hresponds], [w], hword⟩
    · exact ⟨fun _ => hkept, [], by rw [hkept, List.append_nil]⟩
  · rcases heffect.status_cases with hkept | ⟨hcv, hstop, houtside⟩
    · exact ⟨.inl hkept, fun _ _ => hkept, fun _ _ => hkept⟩
    · refine ⟨.inr hcv, fun x hx => absurd hx (hstop x), fun hresponds hinside => ?_⟩
      obtain ⟨k, hk, hout⟩ := houtside hresponds
      exact absurd (hinside k hk) hout.not_gt

/-- Settles O53: for each effect on a voice, what becomes of its two flags. -/
theorem voiceFlagsChangeOnlyAsListed : Obligations.VoiceFlagsChangeOnlyAsListed := by
  intro i s t j v w ht hv hw
  rcases (effect_of_exec ht).voice_cases hv hw with rfl | ⟨x, rfl, rfl⟩ | ⟨x, rfl, rfl⟩ | ⟨rfl, rfl⟩
  · simp_all
  · exact ⟨nofun, fun _ _ => ⟨x, rfl⟩, nofun, fun _ _ => ⟨x, rfl⟩⟩
  · rw [stopped_active]
    refine ⟨by simp_all, by simp_all, fun _ _ => ⟨x, rfl⟩, fun hrel hnot => ?_⟩
    rw [stopped_of_rel _ _ _ hrel, hrel] at hnot
    cases hnot
  · rw [(stepped_keeps _ _ _).1]
    refine ⟨fun _ _ => rfl, fun hidle hactive => ?_, by simp_all, by simp_all⟩
    rw [stepped_of_idle hidle, hidle] at hactive
    cases hactive

/-! ### Reads repeat (spec/20_memory.md R56) -/

/-- A READ_REG, and a READ_VOICE in the pool, emits a word that does not depend on the responses already there. -/
theorem exec_read {i : Instr} (hi : isRead i = true) :
    ∃ word : State → Word32,
      (∀ s : State, (∀ k, voiceRead i = some k → k < s.cfg.nvoices) → exec i s = .next (emit (word s) s)) ∧
      ∀ s w, word (emit w s) = word s := by
  cases i with
  | play _ | stop _ | sample | setAttack _ | setDecay _ | setSustain _ | setRelease _ | setGlide _ => cases hi
  | readRegStatus | readRegAttack | readRegDecay | readRegSustain | readRegRelease | readRegGlide | readRegGain
  | readRegNvoices | readRegSr => exact ⟨_, fun _ _ => rfl, fun _ _ => rfl⟩
  | readVoiceActive _ | readVoicePhase _ | readVoiceOscFreq _ | readVoiceStart _ | readVoiceEnd _ | readVoiceN _
  | readVoiceRel _ | readVoiceNRel _ | readVoiceRelAmp _ | readVoiceRtgAmp _ | readVoiceWave _ | readVoiceState _
  | readVoiceAmp _ =>
    exact ⟨_, fun _ hinside => congrArg Host.Outcome.next (readVoice_inside (hinside _ rfl) _), fun _ _ => rfl⟩

theorem raiseEvent_twice (e : ErrorEvent) (s : State) : raiseEvent e (raiseEvent e s) = raiseEvent e s := by
  simp only [raiseEvent, BitVec.or_assoc, BitVec.or_self]

/-- Settles O47: in the pool the emitted word does not depend on the responses, outside it CV is a sticky bit. -/
theorem readsAreIdempotent : Obligations.ReadsAreIdempotent := by
  intro i s t hi ht
  refine ⟨fun hinside => ?_, fun k hk houtside => ?_⟩
  · obtain ⟨word, hexec, hword⟩ := exec_read hi
    obtain rfl := Host.Outcome.next.inj ((hexec s hinside).symm.trans ht)
    refine ⟨word s, rfl, ?_⟩
    rw [hexec (emit (word s) s) hinside, hword]
    rfl
  · obtain rfl := Host.Outcome.next.inj ((exec_readVoice_outside hk houtside).symm.trans ht)
    refine ⟨rfl, (exec_readVoice_outside (s := raiseEvent .cv s) hk houtside).trans ?_⟩
    rw [raiseEvent_twice]

/-! ### A stored value is read by the next command (spec/45_parameter_commands.md R229) -/

theorem step_encoded {i : Instr} (hi : WellFormed i) (s : State) :
    step { s with input := [.command (encode i)] } = exec i { s with input := [] } :=
  (step_command rfl).trans (runWord_ok (decode_encode hi) _)

theorem runs_two_commands {i j : Instr} {s t u : State} (hi : WellFormed i) (hj : WellFormed j)
    (hfirst : exec i { s with input := [] } = .next t) (hsecond : exec j { t with input := [] } = .next u) :
    Runs s [.command (encode i), .command (encode j)] u :=
  (runInputs_cons ((step_encoded hi s).trans hfirst) _).trans (runInputs_cons ((step_encoded hj t).trans hsecond) [])

theorem next_setPatch_of_accepted {write : F32 → Patch → Patch} {r : Option F32 × Bool} {x : F32}
    (h : r = (some x, false)) (s : State) :
    (.next (setPatch write r { s with input := [] }) : Host.Outcome State Fault Refusal) =
      .next { s with input := [], patch := write x s.patch } := by
  rw [h]; rfl

/-- Settles O48: an accepted operand is stored as it is, and READ_REG emits what the register then holds. -/
theorem setterIsVisibleAtOnce : Obligations.SetterIsVisibleAtOnce := by
  intro s x hx
  have hduration := sanitizeDuration_of_nonneg hx
  exact ⟨runs_two_commands rfl rfl (next_setPatch_of_accepted hduration s) rfl,
    runs_two_commands rfl rfl (next_setPatch_of_accepted hduration s) rfl,
    fun hunit => runs_two_commands rfl rfl (next_setPatch_of_accepted (sanitizeLevel_of_unit hunit) s) rfl,
    runs_two_commands rfl rfl (next_setPatch_of_accepted hduration s) rfl,
    runs_two_commands rfl rfl (next_setPatch_of_accepted hduration s) rfl⟩

end Sys2Proof.Proofs
end

section
/-! PROOFS. A voice under PLAY, STOP and SAMPLE (spec/41_envelope.md R124 to R137; spec/44_engine_commands.md R201 to R203).  At the
moment of a trigger no time has passed since it, and at the moment of a release none since that: each captured amplitude is then
the amplitude.  After a release the elapsed time only grows. -/

namespace Sys2Proof.Proofs

open Sys2Proof.Machine Sys2Proof.Laws

/-! ### No time since the trigger -/

theorem fsub_one_posZero : fsub one posZero = one := by decide

/-- The fade's factor is 1 at its start. -/
theorem ampFade_at_start {v : Voice} (h : v.rtgAmp.toNat < infMag) : ampFade v posZero = v.rtgAmp := by
  have hratio : clamp01 (fdiv posZero rt) = posZero := by decide
  rw [ampFade, hratio, fsub_one_posZero, fmul_one_right h]

theorem fade_branch_at_start {c : Config} {p : Patch} {v : Voice} (hc : ConfigWf c) (hrel : v.rel = false)
    (hn : v.n = 0#32) : ampAt c p v = ampFade v posZero ∧ envState c p v = .retriggerFade := by
  have ht : tOf c v.n = posZero := by rw [hn, tOf_zero hc]
  rw [← ht]
  exact fade_branch hrel (by rw [ht]; decide)

section Trigger

variable {c : Config} {p : Patch} (hc : ConfigWf c) (x : F32) {v : Voice}
include hc

theorem envState_triggered (v : Voice) : envState c p (triggered c p x v) = .retriggerFade :=
  (fade_branch_at_start hc rfl rfl).2

theorem ampAt_triggered (hp : PatchOk p) (hv : VoiceOk c v) : ampAt c p (triggered c p x v) = ampAt c p v := by
  have hamp : (ampAt c p v).toNat < infMag := (ampAt_le_one hc hp hv).trans_lt (by decide)
  rw [(fade_branch_at_start hc rfl rfl).1]
  exact ampFade_at_start hamp

end Trigger

/-! ### The time since the release -/

theorem fmul_posZero_right {a : F32} (ha : a.toNat < infMag) : fmul a posZero = posZero := by
  apply BitVec.eq_of_toNat_eq
  have hzero : unitsOfMag posZero.toNat = 0 := by decide
  rw [fmul_nonneg ha (by decide), hzero, Nat.mul_zero, roundMag_zero]
  rfl

theorem envState_of_rel {c : Config} {p : Patch} {v : Voice} (h : v.rel = true) :
    envState c p v = if isDone c p v then .done else .release := by
  rw [(release_branch h).2, isDone_of_rel h]

theorem isDone_iff (c : Config) (p : Patch) (v : Voice) :
    isDone c p v = true ↔ v.rel = true ∧ fle p.release (tRel c v) = true := Bool.and_eq_true_iff

theorem envState_eq_done_iff (c : Config) (p : Patch) (v : Voice) : envState c p v = .done ↔ isDone c p v = true := by
  cases hrel : v.rel with
  | true =>
    rw [envState_of_rel hrel]
    cases isDone c p v <;> simp
  | false =>
    rw [isDone_of_not_rel hrel]
    refine iff_of_false (fun hdone => ?_) nofun
    unfold envState at hdone
    simp only [hrel, Bool.false_eq_true, if_false] at hdone
    split_ifs at hdone

section Release

variable {c : Config} {p : Patch} {v : Voice} (hc : ConfigWf c)
include hc

theorem tRel_at_release (hn : v.nRel = v.n) : tRel c v = posZero := by
  rw [tRel, hn, BitVec.sub_self, tOf_zero hc]

theorem isDone_at_release (hp : p.release.toNat ≤ infMag) (hrel : v.rel = true) (hn : v.nRel = v.n) :
    isDone c p v = decide (p.release = posZero) := by
  rw [isDone_of_rel hrel, tRel_at_release hc hn, duration_guard hp]

/-- A release with a duration starts at the captured amplitude (R123). -/
theorem ampAt_at_release (hp : p.release.toNat ≤ infMag) (h0 : p.release ≠ posZero) (hrel : v.rel = true)
    (hn : v.nRel = v.n) (hamp : v.relAmp.toNat < infMag) : ampAt c p v = v.relAmp := by
  rw [(release_branch hrel).1, ampRelease, tRel_at_release hc hn, ratio_at_zero h0 hp, fsub_one_posZero,
    fmul_one_right hamp]

/-- A release that is done has taken off all of the captured amplitude (R123, R129). -/
theorem ampAt_of_done (hp : p.release.toNat ≤ infMag) (hamp : v.relAmp.toNat < infMag) (hdone : isDone c p v = true) :
    ampAt c p v = posZero := by
  obtain ⟨hrel, hpast⟩ := (isDone_iff c p v).mp hdone
  have hratio : ratio (tRel c v) p.release = one := ratio_finished (tOf_lt_inf hc _) hp hpast
  have hfactor : fsub one one = posZero := by decide
  rw [(release_branch hrel).1, ampRelease, hratio, hfactor, fmul_posZero_right hamp]

theorem isDone_of_zero_release (h0 : p.release = posZero) (hrel : v.rel = true) : isDone c p v = true := by
  rw [isDone_of_rel hrel, h0, tRel, fle_nonneg (by decide) (tOf_lt_inf hc _).le]
  exact decide_eq_true (Nat.zero_le _)

end Release

/-! ### The commands, voice by voice -/

section Commands

variable {s t : State} {x : F32} {j : Nat} {v w : Voice}

theorem voice_after_play (hx : playable x = true) (ht : exec (.play x) s = .next t)
    (hw : t.voices[selectVoice x s.voices]? = some w) :
    t.cfg = s.cfg ∧ t.patch = s.patch ∧
      ∃ v, s.voices[selectVoice x s.voices]? = some v ∧ w = triggered s.cfg s.patch x v := by
  obtain rfl := Host.Outcome.next.inj ((exec_play_of_playable hx s).symm.trans ht)
  refine ⟨rfl, rfl, ?_⟩
  rw [updateVoice_voices, List.getElem?_modify_eq, Option.map_eq_map, Option.map_eq_some_iff] at hw
  exact hw.imp fun _ ⟨hv, hw⟩ => ⟨hv, hw.symm⟩

theorem voice_after_stop (ht : exec (.stop x) s = .next t) (hv : s.voices[j]? = some v) :
    t.cfg = s.cfg ∧ t.patch = s.patch ∧ t.voices[j]? = some (stopped s.cfg s.patch x v) := by
  obtain rfl := Host.Outcome.next.inj ((exec_stop_eq x s).symm.trans ht)
  exact ⟨rfl, rfl, by rw [List.getElem?_map, hv]; rfl⟩

theorem voices_after_sample (ht : exec .sample s = .next t) (j : Nat) :
    t.cfg = s.cfg ∧ t.patch = s.patch ∧ t.voices[j]? = s.voices[j]?.map (stepped s.cfg s.patch) := by
  obtain rfl := Host.Outcome.next.inj ((exec_sample_eq s).symm.trans ht)
  exact ⟨rfl, rfl, List.getElem?_map⟩

theorem voice_after_sample (ht : exec .sample s = .next t) (hv : s.voices[j]? = some v) (hw : t.voices[j]? = some w) :
    t.cfg = s.cfg ∧ t.patch = s.patch ∧ w = stepped s.cfg s.patch v := by
  obtain ⟨hcfg, hpatch, hvoice⟩ := voices_after_sample ht j
  rw [hw, hv] at hvoice
  exact ⟨hcfg, hpatch, Option.some.inj hvoice⟩

end Commands

/-! ### PLAY -/

theorem voices_ne_nil {s : State} (h : Inv s) : s.voices ≠ [] := by
  obtain ⟨⟨⟨hpos, -⟩, -⟩, hpool, -⟩ := (inv_iff s).mp h
  exact List.ne_nil_of_length_pos (by omega)

/-- Settles O26: the fade starts at the amplitude that the trigger has captured. -/
theorem retriggerIsContinuous : Obligations.RetriggerIsContinuous := by
  intro s x hs hx
  obtain ⟨hc, -, hvs, hp, -⟩ := (inv_iff s).mp hs
  have hsel := selectVoice_lt x (voices_ne_nil hs)
  have hv := List.getElem?_eq_getElem hsel
  refine ⟨_, _, triggered s.cfg s.patch x _, exec_play_of_playable hx s, hv, ?_, rfl,
    ampAt_triggered hc x hp (hvs _ (List.getElem_mem hsel))⟩
  rw [updateVoice_voices, List.getElem?_modify_eq, hv]
  rfl

/-! ### STOP -/

section Stopped

variable {c : Config} {p : Patch} {x : F32} {v : Voice}

theorem stopped_of_no_match (h : v.active = true → v.endFreq ≠ x) : stopped c p x v = v :=
  if_neg fun ⟨hactive, hend, _⟩ => h hactive hend

theorem stopped_of_match (hactive : v.active = true) (hend : v.endFreq = x) (hrel : v.rel = false) :
    stopped c p x v = { v with relAmp := ampAt c p v, nRel := v.n, rel := true } :=
  if_pos ⟨hactive, hend, hrel⟩

theorem stopped_rel_of_match (hactive : v.active = true) (hend : v.endFreq = x) : (stopped c p x v).rel = true := by
  cases hrel : v.rel with
  | true => rw [stopped_of_rel _ _ _ hrel, hrel]
  | false => rw [stopped_of_match hactive hend hrel]

/-- A voice is left as it is, or it is released from now on, and then a STOP leaves it as it is. -/
theorem stopped_stopped : stopped c p x (stopped c p x v) = stopped c p x v := by
  by_cases h : v.active = true ∧ v.endFreq = x
  · exact stopped_of_rel _ _ _ (stopped_rel_of_match h.1 h.2)
  · have hkept : stopped c p x v = v := stopped_of_no_match (not_and.mp h)
    rw [hkept, hkept]

theorem ampAt_stopped (hc : ConfigWf c) (hp : PatchOk p) (hv : VoiceOk c v) (h0 : p.release ≠ posZero) :
    ampAt c p (stopped c p x v) = ampAt c p v := by
  unfold stopped
  split_ifs
  · exact ampAt_at_release hc hp.release h0 rfl rfl ((ampAt_le_one hc hp hv).trans_lt (by decide))
  · rfl

end Stopped

/-- Settles O28: no voice matches, so every voice is mapped to itself. -/
theorem stopWithoutMatchChangesNothing : Obligations.StopWithoutMatchChangesNothing := by
  intro s x hnone
  have hvoices : s.voices.map (stopped s.cfg s.patch x) = s.voices :=
    (List.map_congr_left fun v hv => stopped_of_no_match (hnone v hv)).trans (List.map_id _)
  rw [exec_stop_eq, hvoices]

/-- Settles O29: releasing a voice twice is releasing it once. -/
theorem stopIsIdempotent : Obligations.StopIsIdempotent := by
  intro s t x ht
  obtain rfl := Host.Outcome.next.inj ((exec_stop_eq x s).symm.trans ht)
  rw [exec_stop_eq, List.map_map]
  simp only [Function.comp_def, stopped_stopped]

/-- Settles O30: right after PLAY no time has passed since the trigger, and right after STOP none since the release. -/
theorem playAndStopSetEnvelopeState : Obligations.PlayAndStopSetEnvelopeState := by
  constructor
  · intro s t x w hc hx ht hw
    obtain ⟨hcfg, hpatch, v, -, rfl⟩ := voice_after_play hx ht hw
    rw [hcfg, hpatch]
    exact envState_triggered hc x v
  · intro s t x j v w hc hlegal ht hv hactive hend hrel hw
    obtain ⟨hcfg, hpatch, hvoice⟩ := voice_after_stop ht hv
    have hp : PatchOk s.patch := (patchOk_iff _).mpr hlegal
    rw [hw, stopped_of_match hactive hend hrel] at hvoice
    rw [hcfg, hpatch, Option.some.inj hvoice, envState_of_rel rfl, isDone_at_release hc hp.release rfl rfl]
    simp only [decide_eq_true_eq]
    rfl

/-- Settles O31: both ends of the release branch. -/
theorem releaseRunsFromCaptureToSilence : Obligations.ReleaseRunsFromCaptureToSilence := by
  constructor
  · intro s t x j v w hs h0 ht hv hrel hw
    obtain ⟨hc, -, hvs, hp, -⟩ := (inv_iff s).mp hs
    obtain ⟨hcfg, hpatch, hvoice⟩ := voice_after_stop ht hv
    rw [hcfg, hpatch, Option.some.inj (hw.symm.trans hvoice)]
    exact ampAt_stopped hc hp (hvs v (List.mem_of_getElem? hv)) h0
  · intro s hs v hv hdone
    obtain ⟨hc, -, hvs, hp, -⟩ := (inv_iff s).mp hs
    exact ampAt_of_done hc hp.release ((hvs v hv).relAmp.trans_lt (by decide)) hdone

/-! ### SAMPLE -/

section Stepped

variable {c : Config} {p : Patch} {v : Voice}

theorem stepped_n_of_active (h : v.active = true) : (stepped c p v).n = counterAfter v.n := by
  unfold stepped; rw [if_pos h]

theorem stepped_nRel (c : Config) (p : Patch) (v : Voice) : (stepped c p v).nRel = v.nRel := by
  rw [stepped_frame]

/-- A voice is deactivated exactly when its release is done at the counter it then has (R175). -/
theorem stepped_active_of_active (h : v.active = true) : (stepped c p v).active = !isDone c p (stepped c p v) := by
  unfold stepped; rw [if_pos h]; rfl

theorem counterAfter_ge (n : Word32) : n.toNat ≤ (counterAfter n).toNat := by
  have := n.isLt
  rw [← satInc_eq_counterAfter, satInc_toNat]; omega

theorem stepped_n_ge (c : Config) (p : Patch) (v : Voice) : v.n.toNat ≤ (stepped c p v).n.toNat := by
  cases hactive : v.active with
  | true => rw [stepped_n_of_active hactive]; exact counterAfter_ge v.n
  | false => rw [stepped_of_idle hactive]

/-- The time since the release never decreases (R137). -/
theorem tRel_stepped_ge (hc : ConfigWf c) (hcounters : v.nRel.toNat ≤ v.n.toNat) :
    fle (tRel c v) (tRel c (stepped c p v)) = true := by
  have hn := stepped_n_ge c p v
  unfold tRel
  rw [stepped_nRel]
  refine tOf_mono hc ?_
  rw [BitVec.toNat_sub_of_le hcounters, BitVec.toNat_sub_of_le (hcounters.trans hn)]
  omega

theorem isDone_stepped (hc : ConfigWf c) (hv : VoiceOk c v) (hdone : isDone c p v = true) :
    isDone c p (stepped c p v) = true := by
  obtain ⟨hrel, hpast⟩ := (isDone_iff c p v).mp hdone
  exact (isDone_iff c p _).mpr
    ⟨(stepped_keeps c p v).1.trans hrel, fle_trans hpast (tRel_stepped_ge hc (hv.released hrel))⟩

end Stepped

/-- Settles O33: idle voices step to themselves and add `+0.0` to the mix. -/
theorem sampleOfIdlePoolIsSilent : Obligations.SampleOfIdlePoolIsSilent := fun _ => exec_sample_of_idle

/-- Settles O34: SAMPLE maps each voice by a function of the parameters and the patch alone. -/
theorem sampleKeepsVoicesApart : Obligations.SampleKeepsVoicesApart := by
  intro s s' t t' j hcfg hpatch hvoice ht ht'
  obtain ⟨-, -, hstep⟩ := voices_after_sample ht j
  obtain ⟨-, -, hstep'⟩ := voices_after_sample ht' j
  rw [hstep, hstep', hcfg, hpatch, hvoice]

/-- Settles O37: STOP leaves the voice released, and without a release time a released voice is done. -/
theorem zeroReleaseStopsAtNextSample : Obligations.ZeroReleaseStopsAtNextSample := by
  intro s t u x j v w hc h0 hv hactive hend ht hu hw
  obtain ⟨hcfg, hpatch, hvoice⟩ := voice_after_stop ht hv
  obtain ⟨-, -, rfl⟩ := voice_after_sample hu hvoice hw
  rw [hcfg, hpatch, stepped_active_of_active ((stopped_active _ _ _ _).trans hactive), isDone_of_zero_release hc h0]
  · rfl
  · exact (stepped_keeps _ _ _).1.trans (stopped_rel_of_match hactive hend)

/-- Settles O39: at the top the counter stays, so no time passes after the release. -/
theorem saturatedReleaseNeverEnds : Obligations.SaturatedReleaseNeverEnds := by
  intro s hs h0
  obtain ⟨hc, -, hvs, hp, -⟩ := (inv_iff s).mp hs
  refine ⟨_, exec_sample_eq s, fun j v w hv hactive hrel hn hnRel hw => ?_⟩
  obtain ⟨-, -, rfl⟩ := voice_after_sample (exec_sample_eq s) hv hw
  obtain ⟨hrel_kept, hamp_kept, -⟩ := stepped_keeps s.cfg s.patch v
  have hamp : v.relAmp.toNat < infMag := (hvs v (List.mem_of_getElem? hv)).relAmp.trans_lt (by decide)
  have htop : (stepped s.cfg s.patch v).n = 0xFFFFFFFF#32 := by
    rw [stepped_n_of_active hactive, hn]; rfl
  have hreleased : (stepped s.cfg s.patch v).nRel = (stepped s.cfg s.patch v).n := by
    rw [stepped_nRel, hnRel, htop]
  have hdone : isDone s.cfg s.patch (stepped s.cfg s.patch v) = false := by
    rw [isDone_at_release hc hp.release (hrel_kept.trans hrel) hreleased]
    exact decide_eq_false h0
  refine ⟨?_, htop, hdone, ?_⟩
  · rw [stepped_active_of_active hactive, hdone]; rfl
  · rw [← hamp_kept] at hamp ⊢
    exact ampAt_at_release hc hp.release h0 (hrel_kept.trans hrel) hreleased hamp

/-! ### DONE stays DONE -/

theorem isDone_of_release_eq {c : Config} {p q : Patch} {v : Voice} (h : q.release = p.release) :
    isDone c q v = isDone c p v := by
  unfold isDone; rw [h]

/-- Settles O42: a voice that is done is released, so STOP leaves it as it is, and under SAMPLE the time since its release only
grows; the other commands touch neither the voice nor `P.RELEASE`. -/
theorem doneIsTerminalUntilTrigger : Obligations.DoneIsTerminalUntilTrigger := by
  intro i s t j v w hs ht hplay hset hv hw hdone
  obtain ⟨hc, -, hvs, -, -⟩ := (inv_iff s).mp hs
  have heffect := effect_of_exec ht
  rw [envState_eq_done_iff] at hdone ⊢
  rw [heffect.keeps_configuration.1, isDone_of_release_eq (heffect.keeps_other_registers.release hset)]
  rcases heffect.voice_cases hv hw with rfl | ⟨x, rfl, -⟩ | ⟨x, -, rfl⟩ | ⟨-, rfl⟩
  · exact hdone
  · exact absurd rfl (hplay x)
  · rw [stopped_of_rel _ _ _ ((isDone_iff _ _ _).mp hdone).1]
    exact hdone
  · exact isDone_stepped hc (hvs v (List.mem_of_getElem? hv)) hdone

end Sys2Proof.Proofs
end
